-- ==== Sys2Proof/Word.lean ====
section
/-! DEFINITION. The word types of the QOI chunk codec block (spec/00_scope.md rules R10, R13;
spec/30_encoding.md rule R72) and the pixel. -/

namespace Sys2Proof

/-- One stream byte, or one channel of a pixel: CHANNEL_BITS = 8 (R10). -/
abbrev Byte := BitVec 8

/-- One operand word of a command record or one result word of a response (R72, R75). -/
abbrev Word := BitVec 32

/-- A slot index of the pixel cache: SLOT_BITS = 6 (R10, R40). -/
abbrev SlotIdx := BitVec 6

/-- A pixel `(r, g, b)`, three channels of 8 bits, no alpha (R10, R13). -/
structure Pixel where
  r : Byte
  g : Byte
  b : Byte
  deriving DecidableEq, Repr

end Sys2Proof
end

