-- ==== Sys2Proof/Config.lean ====
section
/-! DEFINITION. The implementation parameters of spec/00_scope.md rule R10, under the names of that rule.
SEED_PREV and DS_ORDER are the two parameters R3 and R10 ask a model to take as named constants; the empty
marker needs no constant, since rule R111 fixes it to the valid bit of the slot (assumption log, entry 11). -/

namespace Sys2Proof.Config

/-- SEED_PREV = (0,0,0): the previous pixel before the first pixel (R10, R22). -/
def seedPrev : Pixel := ⟨0, 0, 0⟩

/-- The two readings of "packed right-to-left" that spec/92_eei_decisions.md D7 names. -/
inductive DsOrder where
  /-- dr in bits 5:4, dg in 3:2, db in 1:0 -/
  | drHigh
  /-- db in bits 5:4, dg in 3:2, dr in 1:0 -/
  | dbHigh
  deriving DecidableEq, Repr

/-- DS_ORDER: dr in bits 5:4, dg in 3:2, db in 1:0 (R10, R63). -/
def dsOrder : DsOrder := .drHigh

/-- RUN_MIN, the shortest run a RUN chunk of the encoder carries (R10). -/
abbrev runMin : Nat := 1
/-- RUN_MAX, the longest run a RUN chunk of the encoder carries (R10). -/
abbrev runMax : Nat := 62
/-- RUN_BIAS: stored value = length − 1 (R10, R71). -/
abbrev runBias : Nat := 1
/-- HASH_MUL = (3, 5, 7): the multiplier of r (R10, R101). -/
abbrev hashMulR : Nat := 3
/-- The multiplier of g (R10, R101). -/
abbrev hashMulG : Nat := 5
/-- The multiplier of b (R10, R101). -/
abbrev hashMulB : Nat := 7
/-- HASH_MOD = 64, which is also CACHE_SLOTS (R10, R101). -/
abbrev hashMod : Nat := 64
/-- DS_RANGE, lower end: −2 (R10). -/
abbrev dsLo : Int := -2
/-- DS_RANGE, upper end: 1 (R10). -/
abbrev dsHi : Int := 1
/-- DS_BIAS = 2 (R10, R71). -/
abbrev dsBias : Int := 2
/-- DM_G_RANGE, lower end: −32 (R10). -/
abbrev dmGLo : Int := -32
/-- DM_G_RANGE, upper end: 31 (R10). -/
abbrev dmGHi : Int := 31
/-- DM_G_BIAS = 32 (R10, R71). -/
abbrev dmGBias : Int := 32
/-- DM_RB_RANGE, lower end: −8 (R10). -/
abbrev dmRbLo : Int := -8
/-- DM_RB_RANGE, upper end: 7 (R10). -/
abbrev dmRbHi : Int := 7
/-- DM_RB_BIAS = 8 (R10, R71). -/
abbrev dmRbBias : Int := 8
/-- RGB_TAG = 0xFE, the first byte of an RGB chunk (R10, R65). -/
abbrev rgbTag : Byte := 0xFE
/-- MAX_CHUNK_BYTES = 4: the most stream bytes one command presents (R10, R74). -/
abbrev maxChunkBytes : Nat := 4

/-- MAGIC, the four magic bytes of the host's file header, first byte first. The spec leaves it open (20_memory.md
R44, 92_eei_decisions.md D42): no value of it can be seen or proved, and the block never reads it. -/
opaque magic : Byte × Byte × Byte × Byte
/-- HDR_CHANNELS, the channel-count byte of the host's file header, left open likewise (R44, D43). -/
opaque hdrChannels : Byte

end Sys2Proof.Config
end

