-- ==== Sys2Proof/Syntax.lean ====
section
/-! DEFINITION. What the host can present to the block, and the instructions: one constructor of `Instr` for
each of the 18 CMD rows and the 5 CHUNK rows of spec/opcode_table.json. -/

namespace Sys2Proof

/-- The command record `cmd = ( op: 5 bits, a: 32 bits, b: 32 bits )` (spec/30_encoding.md rule R72). -/
structure Command where
  op : BitVec 5
  a  : Word
  b  : Word
  deriving DecidableEq, Repr

/-- One thing the host does to the block. The block itself receives command records only (R72) and the reset
of rule R260; `chunk` is the host's presentation of the bytes at a chunk boundary to DEC_CHUNK, the one way a
CHUNK row of the opcode table comes to be executed (assumption log, entry 3). -/
inductive HostRequest where
  /-- a reset the host applies between commands (R260) -/
  | reset
  /-- one command record (R72) -/
  | command (c : Command)
  /-- stream bytes from a chunk boundary on, first byte first (R41, R191) -/
  | chunk (bytes : List Byte)
  deriving DecidableEq, Repr

/-- The instructions. Operands are the fields that spec/30_encoding.md R74 (commands) and R60 (chunks) lay
out, as the bit fields they are; what a field stands for is read in Machine/Operands.lean. -/
inductive Instr where
  /-- START: m = a[1:0] (R210). -/
  | start (m : BitVec 2)
  /-- STATE_READ (R211). -/
  | stateRead
  /-- CACHE_READ: slot = a[5:0] (R116). -/
  | cacheRead (slot : SlotIdx)
  /-- CACHE_CLEAR (R117). -/
  | cacheClear
  /-- CACHE_PROBE: p = a[23:0] (R118). -/
  | cacheProbe (p : Pixel)
  /-- CACHE_INSERT: p = a[23:0] (R119). -/
  | cacheInsert (p : Pixel)
  /-- PIX_EQ: p = a[23:0], q = b[23:0] (R100). -/
  | pixEq (p q : Pixel)
  /-- PIX_HASH: p = a[23:0] (R101). -/
  | pixHash (p : Pixel)
  /-- PIX_DELTA: p = a[23:0], q = b[23:0] (R103). -/
  | pixDelta (p q : Pixel)
  /-- PACK_RUN: n = a[7:0], unsigned (R131). -/
  | packRun (n : BitVec 8)
  /-- PACK_INDEX: slot = a[7:0], unsigned (R132). -/
  | packIndex (slot : BitVec 8)
  /-- PACK_DIFF_SMALL: dr = a[26:18], dg = a[17:9], db = a[8:0], 9-bit two's complement (R133). -/
  | packDiffSmall (dr dg db : BitVec 9)
  /-- PACK_DIFF_MED: dg = a[26:18], u = dr−dg = a[17:9], v = db−dg = a[8:0] (R134). -/
  | packDiffMed (dg u v : BitVec 9)
  /-- PACK_RGB: p = a[23:0] (R135). -/
  | packRgb (p : Pixel)
  /-- UNPACK: s0..s3 = a[31:24], a[23:16], a[15:8], a[7:0]; avail = b[2:0] (R157). -/
  | unpack (s0 s1 s2 s3 : Byte) (avail : BitVec 3)
  /-- ENC_PIXEL: p = a[23:0] (R172). -/
  | encPixel (p : Pixel)
  /-- ENC_FLUSH (R181). -/
  | encFlush
  /-- DEC_CHUNK: operands as UNPACK's (R191). -/
  | decChunk (s0 s1 s2 s3 : Byte) (avail : BitVec 3)
  /-- The RGB chunk `11111110 rrrrrrrr gggggggg bbbbbbbb` (R65). -/
  | rgb (p : Pixel)
  /-- The INDEX chunk `00ssssss` (R61). -/
  | index (slot : SlotIdx)
  /-- The DIFF_SMALL chunk `01rrggbb`: the stored fields rr = dr+2, gg = dg+2, bb = db+2 (R63). -/
  | diffSmall (rr gg bb : BitVec 2)
  /-- The DIFF_MED chunk `10gggggg uuuuvvvv`: the stored fields dg+32, dr−dg+8, db−dg+8 (R62). -/
  | diffMed (gggggg : BitVec 6) (uuuu vvvv : BitVec 4)
  /-- The RUN chunk `11nnnnnn`: the stored field nnnnnn = length − 1 (R64). -/
  | run (nnnnnn : BitVec 6)
  deriving DecidableEq, Repr

end Sys2Proof
end

