-- ==== Sys2Proof/WellFormed.lean ====
section
/-! DEFINITION. The instructions that have an encoding of their own: two field values have none. -/

namespace Sys2Proof

/-- An instruction is well formed when its fields have an encoding of their own. START with mode 3 is
reserved (spec/46_control.md R210, R212), and the RUN byte whose field is 62 is the RGB tag 0xFE
(spec/30_encoding.md R64). Every other value of every field is encodable (R69, R74): an operand outside a
PACK command's range is a legal command that raises RangeError, no ill-formed one. -/
def Instr.wellFormed : Instr → Bool
  | .start m => m != 3
  | .stateRead => true
  | .cacheRead _ => true
  | .cacheClear => true
  | .cacheProbe _ => true
  | .cacheInsert _ => true
  | .pixEq _ _ => true
  | .pixHash _ => true
  | .pixDelta _ _ => true
  | .packRun _ => true
  | .packIndex _ => true
  | .packDiffSmall _ _ _ => true
  | .packDiffMed _ _ _ => true
  | .packRgb _ => true
  | .unpack _ _ _ _ _ => true
  | .encPixel _ => true
  | .encFlush => true
  | .decChunk _ _ _ _ _ => true
  | .rgb _ => true
  | .index _ => true
  | .diffSmall _ _ _ => true
  | .diffMed _ _ _ => true
  | .run nnnnnn => nnnnnn != 62

end Sys2Proof
end

