-- ==== Sys2Proof/Decode.lean ====
section
/-! DEFINITION. The decoder, total on everything the host can present and rejecting by name, and after it the
encoder, both written from spec/30_encoding.md (chunk formats R60 to R68, opcodes R73, operand layouts R74).
Bit-field helpers that the machine shares stand here too. -/

namespace Sys2Proof

/-! ### Bit fields -/

/-- Bits `lo+n-1 .. lo` of a word (R11). -/
def fieldAt (w : Word) (lo n : Nat) : BitVec n := w.extractLsb' lo n

/-- The pixel field of a word: r in bits 23:16, g in 15:8, b in 7:0; bits 31:24 ignored (R13, R74). -/
def pixelField (w : Word) : Pixel := ⟨fieldAt w 16 8, fieldAt w 8 8, fieldAt w 0 8⟩

/-- A pixel as a 24-bit field: r in bits 23:16, g in 15:8, b in 7:0 (R13). -/
def Pixel.bits (p : Pixel) : BitVec 24 := p.r ++ p.g ++ p.b

/-- The bits of a chunk byte: `b0[7:6]`, the tag (R43). -/
def tagOf (b0 : Byte) : BitVec 2 := b0.extractLsb' 6 2

/-- The "remaining 6 bits" of a chunk byte: `b0[5:0]` (R43). -/
def low6 (b0 : Byte) : BitVec 6 := b0.extractLsb' 0 6

/-- The three stored fields (rr, gg, bb) of a DIFF_SMALL byte, placed as DS_ORDER says (R63). -/
def dsFields (b0 : Byte) : BitVec 2 × BitVec 2 × BitVec 2 :=
  match Config.dsOrder with
  | .drHigh => (b0.extractLsb' 4 2, b0.extractLsb' 2 2, b0.extractLsb' 0 2)
  | .dbHigh => (b0.extractLsb' 0 2, b0.extractLsb' 2 2, b0.extractLsb' 4 2)

/-- The DIFF_SMALL byte of three stored fields: tag `01`, then the fields as DS_ORDER says (R63). -/
def dsByte (rr gg bb : BitVec 2) : Byte :=
  match Config.dsOrder with
  | .drHigh => 1#2 ++ rr ++ gg ++ bb
  | .dbHigh => 1#2 ++ bb ++ gg ++ rr

/-- The two bytes of a DIFF_MED chunk: `10gggggg`, `uuuuvvvv` (R62). -/
def dmBytes (gggggg : BitVec 6) (uuuu vvvv : BitVec 4) : List Byte := [2#2 ++ gggggg, uuuu ++ vvvv]

/-- The RUN byte `11nnnnnn` (R64). -/
def runByte (nnnnnn : BitVec 6) : Byte := 3#2 ++ nnnnnn

/-- The INDEX byte `00ssssss` (R61). -/
def indexByte (slot : SlotIdx) : Byte := 0#2 ++ slot

/-- The four bytes of an RGB chunk: 0xFE, r, g, b (R65). -/
def rgbBytes (p : Pixel) : List Byte := [Config.rgbTag, p.r, p.g, p.b]

/-! ### Command opcodes (R73) -/

namespace Op

abbrev start         : BitVec 5 := 0x01
abbrev stateRead     : BitVec 5 := 0x02
abbrev cacheRead     : BitVec 5 := 0x03
abbrev cacheClear    : BitVec 5 := 0x04
abbrev cacheProbe    : BitVec 5 := 0x05
abbrev cacheInsert   : BitVec 5 := 0x06
abbrev pixEq         : BitVec 5 := 0x08
abbrev pixHash       : BitVec 5 := 0x09
abbrev pixDelta      : BitVec 5 := 0x0A
abbrev packRun       : BitVec 5 := 0x10
abbrev packIndex     : BitVec 5 := 0x11
abbrev packDiffSmall : BitVec 5 := 0x12
abbrev packDiffMed   : BitVec 5 := 0x13
abbrev packRgb       : BitVec 5 := 0x14
abbrev unpack        : BitVec 5 := 0x18
abbrev encPixel      : BitVec 5 := 0x1C
abbrev encFlush      : BitVec 5 := 0x1D
abbrev decChunk      : BitVec 5 := 0x1E

end Op

/-- Has this op a row in R73? -/
def opAssigned (op : BitVec 5) : Bool :=
  op == Op.start || op == Op.stateRead || op == Op.cacheRead || op == Op.cacheClear || op == Op.cacheProbe ||
  op == Op.cacheInsert || op == Op.pixEq || op == Op.pixHash || op == Op.pixDelta || op == Op.packRun ||
  op == Op.packIndex || op == Op.packDiffSmall || op == Op.packDiffMed || op == Op.packRgb ||
  op == Op.unpack || op == Op.encPixel || op == Op.encFlush || op == Op.decChunk

/-! ### The decoder -/

/-- Why the decoder gives no instruction. -/
inductive DecodeReject where
  /-- the request is the host's reset, which is no instruction (R260) -/
  | hostReset
  /-- `op` has no row in R73 (R212) -/
  | unassignedOp (op : BitVec 5)
  /-- START with the reserved mode 3 (R212) -/
  | reservedStartMode
  /-- fewer bytes are present than the chunk's first byte requires; `avail` of them are (R151) -/
  | truncatedChunk (avail : Nat)
  deriving DecidableEq, Repr

/-- Decodes a command record by its op; bits that no layout of R74 lists are ignored. -/
def decodeCommand (c : Command) : Except DecodeReject Instr :=
  match c.op with
  | 0x01#5 => if fieldAt c.a 0 2 = 3 then .error .reservedStartMode else .ok (.start (fieldAt c.a 0 2))
  | 0x02#5 => .ok .stateRead
  | 0x03#5 => .ok (.cacheRead (fieldAt c.a 0 6))
  | 0x04#5 => .ok .cacheClear
  | 0x05#5 => .ok (.cacheProbe (pixelField c.a))
  | 0x06#5 => .ok (.cacheInsert (pixelField c.a))
  | 0x08#5 => .ok (.pixEq (pixelField c.a) (pixelField c.b))
  | 0x09#5 => .ok (.pixHash (pixelField c.a))
  | 0x0A#5 => .ok (.pixDelta (pixelField c.a) (pixelField c.b))
  | 0x10#5 => .ok (.packRun (fieldAt c.a 0 8))
  | 0x11#5 => .ok (.packIndex (fieldAt c.a 0 8))
  | 0x12#5 => .ok (.packDiffSmall (fieldAt c.a 18 9) (fieldAt c.a 9 9) (fieldAt c.a 0 9))
  | 0x13#5 => .ok (.packDiffMed (fieldAt c.a 18 9) (fieldAt c.a 9 9) (fieldAt c.a 0 9))
  | 0x14#5 => .ok (.packRgb (pixelField c.a))
  | 0x18#5 => .ok (.unpack (fieldAt c.a 24 8) (fieldAt c.a 16 8) (fieldAt c.a 8 8) (fieldAt c.a 0 8) (fieldAt c.b 0 3))
  | 0x1C#5 => .ok (.encPixel (pixelField c.a))
  | 0x1D#5 => .ok .encFlush
  | 0x1E#5 => .ok (.decChunk (fieldAt c.a 24 8) (fieldAt c.a 16 8) (fieldAt c.a 8 8) (fieldAt c.a 0 8) (fieldAt c.b 0 3))
  | op => .error (.unassignedOp op)

/-- Decodes the chunk at the head of a list of stream bytes: 0xFE first, then the two tag bits (R66). Bytes
after the chunk are not looked at (R200). -/
def decodeChunk : List Byte → Except DecodeReject Instr
  | [] => .error (.truncatedChunk 0)
  | b0 :: rest =>
    if b0 = Config.rgbTag then
      match rest with
      | r :: g :: b :: _ => .ok (.rgb ⟨r, g, b⟩)
      | short => .error (.truncatedChunk (1 + short.length))
    else if tagOf b0 = 3 then .ok (.run (low6 b0))
    else if tagOf b0 = 0 then .ok (.index (low6 b0))
    else if tagOf b0 = 1 then .ok (.diffSmall (dsFields b0).1 (dsFields b0).2.1 (dsFields b0).2.2)
    else
      match rest with
      | b1 :: _ => .ok (.diffMed (low6 b0) (b1.extractLsb' 4 4) (b1.extractLsb' 0 4))
      | [] => .error (.truncatedChunk 1)

/-- The decoder, total on every host request. -/
def decode : HostRequest → Except DecodeReject Instr
  | .reset => .error .hostReset
  | .command c => decodeCommand c
  | .chunk bytes => decodeChunk bytes

/-! ### The encoder -/

/-- Three 9-bit delta fields in bits 26:18, 17:9, 8:0 of a word (R74). -/
def deltaWord (x y z : BitVec 9) : Word := 0#5 ++ x ++ y ++ z

/-- Four stream bytes in a word, the first one highest (R46, R74). -/
def streamWord (s0 s1 s2 s3 : Byte) : Word := s0 ++ s1 ++ s2 ++ s3

/-- The host request that presents an instruction: a command record (R73, R74) or the bytes of a chunk (R60).
Operand bits that no layout lists are written 0. -/
def encode : Instr → HostRequest
  | .start m => .command ⟨Op.start, m.setWidth 32, 0⟩
  | .stateRead => .command ⟨Op.stateRead, 0, 0⟩
  | .cacheRead slot => .command ⟨Op.cacheRead, slot.setWidth 32, 0⟩
  | .cacheClear => .command ⟨Op.cacheClear, 0, 0⟩
  | .cacheProbe p => .command ⟨Op.cacheProbe, p.bits.setWidth 32, 0⟩
  | .cacheInsert p => .command ⟨Op.cacheInsert, p.bits.setWidth 32, 0⟩
  | .pixEq p q => .command ⟨Op.pixEq, p.bits.setWidth 32, q.bits.setWidth 32⟩
  | .pixHash p => .command ⟨Op.pixHash, p.bits.setWidth 32, 0⟩
  | .pixDelta p q => .command ⟨Op.pixDelta, p.bits.setWidth 32, q.bits.setWidth 32⟩
  | .packRun n => .command ⟨Op.packRun, n.setWidth 32, 0⟩
  | .packIndex slot => .command ⟨Op.packIndex, slot.setWidth 32, 0⟩
  | .packDiffSmall dr dg db => .command ⟨Op.packDiffSmall, deltaWord dr dg db, 0⟩
  | .packDiffMed dg u v => .command ⟨Op.packDiffMed, deltaWord dg u v, 0⟩
  | .packRgb p => .command ⟨Op.packRgb, p.bits.setWidth 32, 0⟩
  | .unpack s0 s1 s2 s3 avail => .command ⟨Op.unpack, streamWord s0 s1 s2 s3, avail.setWidth 32⟩
  | .encPixel p => .command ⟨Op.encPixel, p.bits.setWidth 32, 0⟩
  | .encFlush => .command ⟨Op.encFlush, 0, 0⟩
  | .decChunk s0 s1 s2 s3 avail => .command ⟨Op.decChunk, streamWord s0 s1 s2 s3, avail.setWidth 32⟩
  | .rgb p => .chunk (rgbBytes p)
  | .index slot => .chunk [indexByte slot]
  | .diffSmall rr gg bb => .chunk [dsByte rr gg bb]
  | .diffMed gggggg uuuu vvvv => .chunk (dmBytes gggggg uuuu vvvv)
  | .run nnnnnn => .chunk [runByte nnnnnn]

/-! ### Words numbered as the opcode table numbers them -/

/-- Byte `k` of a table word of `nbits` bits (bit 0 is bit 0 of the first byte; bits above `nbits` are 0). -/
def tableByte (nbits w k : Nat) : Byte := BitVec.ofNat 8 ((w % 2 ^ nbits) / 2 ^ (8 * k))

/-- The host request of a table word. A CMD row has its five op bits only, so its operand words are 0; a CHUNK
row has the chunk's bytes, the first byte in bits 7:0. The table numbers the op of a command and the first
byte of a chunk in the same bits: a first byte below 0x20 that is an assigned op is read as the command, any
other one as a chunk (assumption log, entry 4). -/
def requestOfTableWord (nbits w : Nat) : HostRequest :=
  let b0 := tableByte nbits w 0
  if b0.toNat < 32 ∧ opAssigned (b0.setWidth 5) = true then
    .command ⟨b0.setWidth 5, 0, 0⟩
  else
    .chunk [b0, tableByte nbits w 1, tableByte nbits w 2, tableByte nbits w 3]

/-- The instruction the decoder reads from a table word. -/
def decodeTableWord (nbits w : Nat) : Option Instr :=
  match decode (requestOfTableWord nbits w) with
  | .ok i => some i
  | .error _ => none

end Sys2Proof
end

