-- ==== Sys2Proof/Machine/State.lean ====
section
/-! DEFINITION. The state of the block (spec/10_state.md rule R20: "exactly the following, and nothing else"),
the response record (spec/30_encoding.md rule R75), and, as the model's own part, the host's side of the
interface: the requests it has queued and the latest response it was given. -/

namespace Sys2Proof.Machine

/-- `MODE` (R24): 0 IDLE, 1 ENCODE, 2 DECODE. "The value 3 is never held", so it has no constructor
(assumption log, entry 10). -/
inductive Mode where
  | idle
  | encode
  | decode
  deriving DecidableEq, Repr

/-- The error codes of spec/60_exceptions.md rule R231, in the order of their numbers 0..7. -/
inductive ErrCode where
  /-- 0: no error -/
  | noError
  /-- 1: FormatError; never raised by the block, reserved for the host (R232) -/
  | formatError
  /-- 2: CacheIntegrityError (R233) -/
  | cacheIntegrity
  /-- 3: UnknownTagError (R234) -/
  | unknownTag
  /-- 4: RangeError (R235) -/
  | rangeError
  /-- 5: ChannelRangeError (R236) -/
  | channelRange
  /-- 6: ModeError (R238) -/
  | modeError
  /-- 7: IllegalCommand (R239) -/
  | illegalCommand
  deriving DecidableEq, Repr

/-- The sticky error register `ERR` (R25, R28): `code` 3 bits, `info` 8 bits. -/
structure ErrReg where
  code : ErrCode
  info : Byte
  deriving DecidableEq, Repr

/-- One cache entry, 25 bits read and written as one unit (R29, R40, R48): `valid` is CV[s], `pixel` is CP[s]. -/
structure CacheEntry where
  valid : Bool
  pixel : Pixel
  deriving DecidableEq, Repr

/-- The pixel cache: CACHE_SLOTS = 64 entries (R10, R29, R110). -/
abbrev Cache := Vector CacheEntry 64

/-- The response record (R75): err 3 bits, info 8 bits, nout 3 bits, out[0..4] 8 bits each, r0 and r1 32 bits. -/
structure Response where
  err  : ErrCode
  info : Byte
  nout : BitVec 3
  out  : Vector Byte 5
  r0   : Word
  r1   : Word
  deriving DecidableEq, Repr

/-- The machine. The first five fields are the state that rule R20 gives the block (`err` holds ERR.code and
ERR.info, `cache` holds every CV[s] and CP[s]). The last two are the model's own (assumption log, entries 1
and 2): rule R35 counts the command and response records to the host, not to the block. -/
structure State where
  /-- `PREV`, 24 bits: the previous pixel (R22) -/
  prev : Pixel
  /-- `RUN`, 6 bits: the open run counter (R23) -/
  run : BitVec 6
  /-- `MODE`, 2 bits (R24) -/
  mode : Mode
  /-- `ERR.code` and `ERR.info` (R25) -/
  err : ErrReg
  /-- `CV[s]` and `CP[s]` for s in 0..63 (R29) -/
  cache : Cache
  /-- model's own: the requests the host has not yet seen executed, the next one first -/
  pending : List HostRequest
  /-- model's own: the response to the latest command, `none` when no command was run since reset -/
  rsp : Option Response
  deriving DecidableEq, Repr

/-- What makes the machine stop with a fault: nothing does. Every error of the spec is a response code and a
next state (spec/60_exceptions.md R230, R237), so this type has no constructor; no step raises a fault, which
is the safe direction only as far as the errors are modelled exactly (assumption log, entry 16). -/
inductive Fault where
  deriving DecidableEq, Repr

/-- Why a step gives an instruction no meaning. -/
inductive Refusal where
  /-- Raised only by an arm of Machine/Dispatch.lean for an instruction without a meaning; no arm does so now.
  Safe: the machine stops where the hardware goes on. -/
  | notModelled (mnemonic : String)
  deriving DecidableEq, Repr

/-- An entry at reset: CV = 0 (R33). CP is unspecified there and unobservable; the model names (0,0,0)
(assumption log, entry 5). -/
def CacheEntry.atReset : CacheEntry := ⟨false, ⟨0, 0, 0⟩⟩

/-- The machine right after reset (R33, R260): PREV = SEED_PREV, RUN = 0, MODE = IDLE, ERR = 0, every slot
empty. The host has queued nothing and been given no response. -/
def State.reset : State where
  prev := Config.seedPrev
  run := 0
  mode := .idle
  err := ⟨.noError, 0⟩
  cache := Vector.replicate 64 CacheEntry.atReset
  pending := []
  rsp := none

end Sys2Proof.Machine
end

