-- ==== Sys2Proof/Machine/Flags.lean ====
section
/-! DEFINITION. The block has no flag register (spec/10_state.md rule R27). What stands here are the numbers and
flag-like bits that rule names, all of them response fields or codes, and how a value is placed in a result
word (spec/30_encoding.md R76 to R78). -/

namespace Sys2Proof.Machine

/-- The number of an error code: `err` of a response, `ERR.code` in STATE_READ (R231). -/
def ErrCode.bits : ErrCode → BitVec 3
  | .noError => 0
  | .formatError => 1
  | .cacheIntegrity => 2
  | .unknownTag => 3
  | .rangeError => 4
  | .channelRange => 5
  | .modeError => 6
  | .illegalCommand => 7

/-- The number of a mode: `MODE` in STATE_READ (R24). -/
def Mode.bits : Mode → BitVec 2
  | .idle => 0
  | .encode => 1
  | .decode => 2

/-- The kind of a chunk, or NONE (R78). -/
inductive Kind where
  | index
  | diffSmall
  | diffMed
  | run
  | rgb
  | noChunk
  deriving DecidableEq, Repr

/-- Kind codes; 5 and 6 are never produced (R78). -/
def Kind.bits : Kind → BitVec 3
  | .index => 0
  | .diffSmall => 1
  | .diffMed => 2
  | .run => 3
  | .rgb => 4
  | .noChunk => 7

/-- The bytes a chunk of this kind occupies: its length in UNPACK and DEC_CHUNK (R60, R200). -/
def Kind.length : Kind → Nat
  | .index => 1
  | .diffSmall => 1
  | .diffMed => 2
  | .run => 1
  | .rgb => 4
  | .noChunk => 0

/-- A result bit: 1 when the condition holds (the equality, hit, valid and ran bits of R76). -/
def bit (c : Bool) : BitVec 1 := BitVec.ofBool c

/-- A value placed with its bit 0 at bit `lo` of an otherwise zero result word (R76: "fields not listed are 0"). -/
def place (lo : Nat) {n : Nat} (v : BitVec n) : Word := v.setWidth 32 <<< lo

/-- The mask of ChannelRangeError: bit 2 for r, bit 1 for g, bit 0 for b, each 1 when that channel of the
reconstruction is outside [0,255] (R197). -/
def channelMask (r g b : Int) : Byte :=
  let out (x : Int) : BitVec 1 := bit (decide (x < 0 ∨ 255 < x))
  0#5 ++ out r ++ out g ++ out b

end Sys2Proof.Machine
end

