-- ==== Sys2Proof/Machine/Operands.lean ====
section
/-! DEFINITION. What the operand fields stand for: unsigned and two's-complement readings (spec/00_scope.md
R12), biased chunk fields (spec/30_encoding.md R71), `avail` (R74), the mode operand of START (R210), and the
field tuple of a chunk. -/

namespace Sys2Proof.Machine

/-- `zext`: a field read as unsigned (R12, R71). -/
abbrev zext {n : Nat} (v : BitVec n) : Nat := v.toNat

/-- `sext_9`: a 9-bit field read as two's complement (R12, R74). -/
abbrev sext9 (v : BitVec 9) : Int := v.toInt

/-- `tc_9`: the 9-bit two's-complement encoding of an integer in [−256, 255] (R12). -/
def tc9 (x : Int) : BitVec 9 := BitVec.ofInt 9 x

/-- A stored field less its bias (R71). -/
def unbias (bias : Int) {n : Nat} (v : BitVec n) : Int := (v.toNat : Int) - bias

/-- A signed value plus its bias, as the stored field of `n` bits (R71). -/
def biased (bias : Int) (n : Nat) (x : Int) : BitVec n := BitVec.ofInt n (x + bias)

/-- `lo ≤ x ≤ hi` on integers (R12). -/
def inRange (lo hi x : Int) : Bool := decide (lo ≤ x ∧ x ≤ hi)

/-- `avail = min(b[2:0], 4)`: the values 5, 6 and 7 mean 4 (R74). -/
def availOf (field : BitVec 3) : Nat := min field.toNat Config.maxChunkBytes

/-- The mode operand of START; 3 is reserved (R210). -/
def modeOf (m : BitVec 2) : Option Mode :=
  if m = 0 then some .idle else if m = 1 then some .encode else if m = 2 then some .decode else none

/-- The field tuple of one chunk, as R79 lists it: DIFF_MED carries its three stored quantities dg, u = dr−dg
and v = db−dg. -/
inductive Chunk where
  | index (slot : SlotIdx)
  | diffSmall (dr dg db : Int)
  | diffMed (dg u v : Int)
  | run (n : Nat)
  | rgb (p : Pixel)
  deriving DecidableEq, Repr

/-- The kind of a chunk. -/
def Chunk.kind : Chunk → Kind
  | .index _ => .index
  | .diffSmall _ _ _ => .diffSmall
  | .diffMed _ _ _ => .diffMed
  | .run _ => .run
  | .rgb _ => .rgb

/-- DIFF_SMALL's deltas: bias 2 off each stored field (R155). -/
def diffSmallFields (rr gg bb : BitVec 2) : Chunk :=
  .diffSmall (unbias Config.dsBias rr) (unbias Config.dsBias gg) (unbias Config.dsBias bb)

/-- DIFF_MED's quantities: bias 32 off the first stored field, 8 off the other two (R156). -/
def diffMedFields (gggggg : BitVec 6) (uuuu vvvv : BitVec 4) : Chunk :=
  .diffMed (unbias Config.dmGBias gggggg) (unbias Config.dmRbBias uuuu) (unbias Config.dmRbBias vvvv)

/-- RUN's length: the stored field plus 1, so 64 for the byte 0xFF (R153, R68). -/
def runFields (nnnnnn : BitVec 6) : Chunk := .run (zext nnnnnn + Config.runBias)

end Sys2Proof.Machine
end

