-- ==== Sys2Proof/Machine/Ops.lean ====
section
/-! DEFINITION. The shared operations: the pixel functions, the cache, responses, raising an error and leaving
the faulted state, the command gate, and the host's queue. -/

namespace Sys2Proof.Machine

/-! ### Pixel functions (spec/40_pixel.md) -/

/-- `PixEq`: componentwise equality (R100). -/
def pixelsEqual (p q : Pixel) : Bool := p.r == q.r && p.g == q.g && p.b == q.b

/-- `PixHash(p) = (3·r + 5·g + 7·b) mod 64` (R101). -/
def pixHash (p : Pixel) : SlotIdx :=
  BitVec.ofNat 6 ((Config.hashMulR * p.r.toNat + Config.hashMulG * p.g.toNat + Config.hashMulB * p.b.toNat) %
    Config.hashMod)

/-- `Delta(p, q)`: the componentwise difference on integers, which does not wrap (R103). -/
def pixelDelta (p q : Pixel) : Int × Int × Int :=
  ((p.r.toNat : Int) - q.r.toNat, (p.g.toNat : Int) - q.g.toNat, (p.b.toNat : Int) - q.b.toNat)

/-! ### The pixel cache (spec/41_cache.md) -/

/-- `CacheRead(s)` = (CV[s], CP[s]) (R14). -/
def State.cacheRead (s : State) (slot : SlotIdx) : CacheEntry := s.cache[slot.toNat]'slot.isLt

/-- `CacheWrite(s, p)`: CP[s] <- p; CV[s] <- 1 (R14). -/
def State.cacheWrite (s : State) (slot : SlotIdx) (p : Pixel) : State :=
  { s with cache := s.cache.set slot.toNat ⟨true, p⟩ slot.isLt }

/-- The entry with CV <- 0 and its CP kept (R117). -/
def CacheEntry.emptied (e : CacheEntry) : CacheEntry := { e with valid := false }

/-- Every CV[s] <- 0; the CP[s] stay, unobservable (R117, R210, R33). -/
def State.cacheClear (s : State) : State :=
  { s with cache := ⟨⟨s.cache.toList.map CacheEntry.emptied⟩, by simp⟩ }

/-- A genuine entry equal to p (R111, R112): an empty slot equals no pixel. -/
def CacheEntry.holds (e : CacheEntry) (p : Pixel) : Bool := e.valid && pixelsEqual e.pixel p

/-- `Probe(p)`: the hit bit and the state after it; the cache is written on a miss only (R112). -/
def State.probe (s : State) (p : Pixel) : Bool × State :=
  if (s.cacheRead (pixHash p)).holds p then (true, s) else (false, s.cacheWrite (pixHash p) p)

/-- `Insert(p)`: an unconditional write of slot PixHash(p) (R113). -/
def State.insert (s : State) (p : Pixel) : State := s.cacheWrite (pixHash p) p

/-! ### Responses (spec/30_encoding.md R75) -/

/-- The response with every field 0. -/
def Response.zero : Response where
  err := .noError
  info := 0
  nout := 0
  out := Vector.replicate 5 0
  r0 := 0
  r1 := 0

/-- The response of an error: err and info, every other field 0 (R75, R237). -/
def Response.error (code : ErrCode) (info : Byte) : Response :=
  { Response.zero with err := code, info := info }

/-- `emit(x)`: out[nout] <- x; nout <- nout + 1 (R15). -/
def Response.emit (r : Response) (x : Byte) : Response :=
  { r with out := r.out.setIfInBounds r.nout.toNat x, nout := r.nout + 1 }

/-- `for x in bytes: emit(x)`. -/
def Response.emitAll (r : Response) (bytes : List Byte) : Response := bytes.foldl Response.emit r

/-- The valid stream bytes of a response, `out[0]` first (R75). -/
def Response.bytes (r : Response) : List Byte := r.out.toList.take r.nout.toNat

/-- The state with `r` given to the host. -/
def State.respond (s : State) (r : Response) : State := { s with rsp := some r }

/-- A response without stream bytes. -/
def State.respondWords (s : State) (r0 r1 : Word) : State :=
  s.respond { Response.zero with r0 := r0, r1 := r1 }

/-- A response with stream bytes and `r0`. -/
def State.respondBytes (s : State) (bytes : List Byte) (r0 : Word) : State :=
  s.respond { Response.zero.emitAll bytes with r0 := r0 }

/-! ### Errors (spec/60_exceptions.md) -/

/-- The block is faulted when ERR.code ≠ 0 (R25). -/
def State.faulted (s : State) : Bool := s.err.code != .noError

/-- `raise E(info)`: no state but ERR is written, and the response carries the error alone (R15, R237). -/
def State.raise (s : State) (code : ErrCode) (info : Byte) : State :=
  { s with err := ⟨code, info⟩, rsp := some (Response.error code info) }

/-- A command refused while faulted: nothing changes, the latched error is returned (R214). -/
def State.refuse (s : State) : State := s.respond (Response.error s.err.code s.err.info)

/-- The one way out of the faulted state beside reset (R241): the state START leaves for a legal mode (R210,
R33). CP[s] is unchanged and unobservable. -/
def State.startImage (s : State) (m : Mode) : State :=
  { s.cacheClear with mode := m, prev := Config.seedPrev, run := 0, err := ⟨.noError, 0⟩ }

/-- Reset applied by the host between commands (R260): every register and slot as after power-on. It produces
no response; the host's later requests stay queued. -/
def State.hostReset (s : State) : State := { State.reset with pending := s.pending }

/-! ### The command gate (spec/46_control.md R215) -/

/-- The mode a command requires, `none` for any (R73, R213). -/
def requiredMode (op : BitVec 5) : Option Mode :=
  if op = Op.encPixel ∨ op = Op.encFlush then some .encode
  else if op = Op.decChunk then some .decode
  else if op = Op.cacheClear ∨ op = Op.cacheProbe ∨ op = Op.cacheInsert then some .idle
  else none

/-- Is this command run while the block is faulted: STATE_READ, CACHE_READ and a legal START (R214)? -/
def runsWhileFaulted (op : BitVec 5) (legal : Bool) : Bool :=
  op == Op.stateRead || op == Op.cacheRead || (op == Op.start && legal)

/-- `Gate(cmd)`, applied to every command before its rule: the faulted refusal first, then IllegalCommand, then
ModeError, then the rule `body` (R215, R240). -/
def gate (op : BitVec 5) (legal : Bool) (body : State → State) (s : State) : State :=
  if s.faulted then
    if runsWhileFaulted op legal then body s else s.refuse
  else if !legal then s.raise .illegalCommand (op.setWidth 8)
  else
    match requiredMode op with
    | none => body s
    | some m => if s.mode = m then body s else s.raise .modeError (op.setWidth 8)

/-- A command that passes the gate, as an outcome of a step. No command stops the machine: its errors are next
states (R230, R237). -/
def runCommand (op : BitVec 5) (legal : Bool) (body : State → State) (s : State) :
    Host.Outcome State Fault Refusal :=
  .next (gate op legal body s)

/-! ### The host's queue (assumption log, entries 1, 6, 7, 8, 14) -/

/-- The next request of the host, and the state with it taken from the queue. -/
def State.fetch (s : State) : Option (HostRequest × State) :=
  match s.pending with
  | [] => none
  | r :: rest => some (r, { s with pending := rest })

/-- With no request queued the block waits and holds its state (R251, R262). -/
def State.hold (s : State) : State := s

/-- What a request does that gives no instruction: the host's reset (R260); an unassigned op or START with mode
3, which the gate makes an IllegalCommand (R212, R215); a chunk cut short, which DEC_CHUNK answers with
UnknownTagError (R151). -/
def State.takeRejected (s : State) : DecodeReject → State
  | .hostReset => s.hostReset
  | .unassignedOp op => gate op false (fun t => t) s
  | .reservedStartMode => gate Op.start false (fun t => t) s
  | .truncatedChunk avail => gate Op.decChunk true (fun t => t.raise .unknownTag (BitVec.ofNat 8 avail)) s

/-- The state in which the host presents this request next. -/
def State.present (s : State) (r : HostRequest) : State := { s with pending := r :: s.pending }

end Sys2Proof.Machine
end

