-- ==== Sys2Proof/Machine/CacheUnit.lean ====
section
/-! DEFINITION. The direct cache commands CACHE_READ, CACHE_CLEAR, CACHE_PROBE and CACHE_INSERT
(spec/41_cache.md R116 to R119). -/

namespace Sys2Proof.Machine

/-- `r0` of CACHE_READ: CV in bit 24; CP in 23:0 when the slot is genuine, 0 when it is empty (R76, R116). -/
def cacheReadR0 (e : CacheEntry) : Word :=
  place 24 (bit e.valid) ||| place 0 (if e.valid then e.pixel.bits else 0)

/-- CACHE_READ (R116): accepted in every mode and while faulted; no state is written. -/
def execCacheRead (slot : SlotIdx) (s : State) : Host.Outcome State Fault Refusal :=
  runCommand Op.cacheRead true (fun t => t.respondWords (cacheReadR0 (t.cacheRead slot)) 0) s

/-- CACHE_CLEAR (R117): every CV[s] <- 0. -/
def execCacheClear (s : State) : Host.Outcome State Fault Refusal :=
  runCommand Op.cacheClear true (fun t => t.cacheClear.respondWords 0 0) s

/-- CACHE_PROBE (R118): Probe(p); r0[5:0] = the slot, r0[6] = hit. -/
def execCacheProbe (p : Pixel) (s : State) : Host.Outcome State Fault Refusal :=
  runCommand Op.cacheProbe true
    (fun t => (t.probe p).2.respondWords (place 0 (pixHash p) ||| place 6 (bit (t.probe p).1)) 0) s

/-- CACHE_INSERT (R119): Insert(p); r0[5:0] = the slot. -/
def execCacheInsert (p : Pixel) (s : State) : Host.Outcome State Fault Refusal :=
  runCommand Op.cacheInsert true (fun t => (t.insert p).respondWords (place 0 (pixHash p)) 0) s

end Sys2Proof.Machine
end

