-- ==== Sys2Proof/Machine/Pack.lean ====
section
/-! DEFINITION. The packing functions and the five PACK commands (spec/42_chunk_pack.md R130 to R136). -/

namespace Sys2Proof.Machine

/-- The packing functions of R130: the bytes of a chunk in stream order. Exact for fields inside the ranges
R130 states; outside them they are not applied (R130, R137). -/
def Chunk.pack : Chunk → List Byte
  | .run n => [runByte (BitVec.ofNat 6 (n - Config.runBias))]
  | .index slot => [indexByte slot]
  | .diffSmall dr dg db =>
      [dsByte (biased Config.dsBias 2 dr) (biased Config.dsBias 2 dg) (biased Config.dsBias 2 db)]
  | .diffMed dg u v =>
      dmBytes (biased Config.dmGBias 6 dg) (biased Config.dmRbBias 4 u) (biased Config.dmRbBias 4 v)
  | .rgb p => rgbBytes p

/-- The range of DIFF_SMALL: all three deltas in [−2,1] (R133, R177). -/
def diffSmallFits (dr dg db : Int) : Bool :=
  inRange Config.dsLo Config.dsHi dr && inRange Config.dsLo Config.dsHi dg && inRange Config.dsLo Config.dsHi db

/-- The range of DIFF_MED: dg in [−32,31], u = dr−dg and v = db−dg in [−8,7] (R134, R178). -/
def diffMedFits (dg u v : Int) : Bool :=
  inRange Config.dmGLo Config.dmGHi dg && inRange Config.dmRbLo Config.dmRbHi u &&
    inRange Config.dmRbLo Config.dmRbHi v

/-- What the packing functions can represent (R71, R130). -/
def Chunk.packable : Chunk → Bool
  | .run n => decide (Config.runMin ≤ n ∧ n ≤ Config.runMax)
  | .index _ => true
  | .diffSmall dr dg db => diffSmallFits dr dg db
  | .diffMed dg u v => diffMedFits dg u v
  | .rgb _ => true

/-- A PACK command after the gate: RangeError (info = op) before any byte when the fields do not fit (R136,
R235), else the bytes. -/
def packOrRaise (op : BitVec 5) (fits : Bool) (c : Chunk) (t : State) : State :=
  if fits then t.respondBytes c.pack 0 else t.raise .rangeError (op.setWidth 8)

/-- PACK_RUN (R131): n in [1,62]. -/
def execPackRun (n : BitVec 8) (s : State) : Host.Outcome State Fault Refusal :=
  runCommand Op.packRun true (packOrRaise Op.packRun (Chunk.run (zext n)).packable (.run (zext n))) s

/-- PACK_INDEX (R132): slot at most 63; the cache is not read. -/
def execPackIndex (slot : BitVec 8) (s : State) : Host.Outcome State Fault Refusal :=
  runCommand Op.packIndex true
    (packOrRaise Op.packIndex (decide (zext slot ≤ 63)) (.index (slot.setWidth 6))) s

/-- PACK_DIFF_SMALL (R133): each delta in [−2,1]; one RangeError whatever the number of bad fields. -/
def execPackDiffSmall (dr dg db : BitVec 9) (s : State) : Host.Outcome State Fault Refusal :=
  runCommand Op.packDiffSmall true
    (packOrRaise Op.packDiffSmall (diffSmallFits (sext9 dr) (sext9 dg) (sext9 db))
      (.diffSmall (sext9 dr) (sext9 dg) (sext9 db))) s

/-- PACK_DIFF_MED (R134): dg in [−32,31], u and v in [−8,7]. -/
def execPackDiffMed (dg u v : BitVec 9) (s : State) : Host.Outcome State Fault Refusal :=
  runCommand Op.packDiffMed true
    (packOrRaise Op.packDiffMed (diffMedFits (sext9 dg) (sext9 u) (sext9 v))
      (.diffMed (sext9 dg) (sext9 u) (sext9 v))) s

/-- PACK_RGB (R135): no pixel is out of range. -/
def execPackRgb (p : Pixel) (s : State) : Host.Outcome State Fault Refusal :=
  runCommand Op.packRgb true (packOrRaise Op.packRgb true (.rgb p)) s

end Sys2Proof.Machine
end

