-- ==== Sys2Proof/Machine/Unpack.lean ====
section
/-! DEFINITION. The unpacking dispatcher and the UNPACK command (spec/43_chunk_unpack.md R150 to R157). -/

namespace Sys2Proof.Machine

/-- `Unpack(s, avail)`: the chunk at the boundary, or the info byte of UnknownTagError (R150, R151). The tests
stand in the order of R150; the last arm takes the tag `10`, and no fifth arm is needed (R158). -/
def unpackChunk (s0 s1 s2 s3 : Byte) (avail : Nat) : Except Byte Chunk :=
  let present (k : Kind) (c : Chunk) : Except Byte Chunk :=
    if avail < k.length then .error (BitVec.ofNat 8 avail) else .ok c
  if avail = 0 then .error 0
  else if s0 = Config.rgbTag then present .rgb (.rgb ⟨s1, s2, s3⟩)
  else if tagOf s0 = 3 then present .run (runFields (low6 s0))
  else if tagOf s0 = 0 then present .index (.index (low6 s0))
  else if tagOf s0 = 1 then
    present .diffSmall (diffSmallFields (dsFields s0).1 (dsFields s0).2.1 (dsFields s0).2.2)
  else present .diffMed (diffMedFields (low6 s0) (s1.extractLsb' 4 4) (s1.extractLsb' 0 4))

/-- `r0` of UNPACK: the kind code in 2:0, the chunk's length in 5:3 (R76). -/
def unpackR0 (c : Chunk) : Word := place 0 c.kind.bits ||| place 3 (BitVec.ofNat 3 c.kind.length)

/-- `r1` of UNPACK, by kind (R77). -/
def unpackR1 : Chunk → Word
  | .run n => place 0 (BitVec.ofNat 7 n)
  | .index slot => place 0 slot
  | .diffSmall dr dg db => deltaWord (tc9 dr) (tc9 dg) (tc9 db)
  | .diffMed dg u v => deltaWord (tc9 dg) (tc9 u) (tc9 v)
  | .rgb p => place 0 p.bits

/-- UNPACK (R157): the fields of one chunk; no state is written. -/
def execUnpack (s0 s1 s2 s3 : Byte) (avail : BitVec 3) (s : State) : Host.Outcome State Fault Refusal :=
  runCommand Op.unpack true
    (fun t =>
      match unpackChunk s0 s1 s2 s3 (availOf avail) with
      | .error info => t.raise .unknownTag info
      | .ok c => t.respondWords (unpackR0 c) (unpackR1 c)) s

end Sys2Proof.Machine
end

