-- ==== Sys2Proof/Machine/Decoder.lean ====
section
/-! DEFINITION. The decoder step: DEC_CHUNK (spec/45_decoder_step.md R190 to R200). -/

namespace Sys2Proof.Machine

/-- PREV plus three deltas on integers, or the mask of the channels outside [0,255]: it neither wraps nor clamps
(R195 to R197). -/
def reconstruct (prev : Pixel) (dr dg db : Int) : Except Byte Pixel :=
  let r : Int := prev.r.toNat + dr
  let g : Int := prev.g.toNat + dg
  let b : Int := prev.b.toNat + db
  if channelMask r g b = 0 then .ok ⟨BitVec.ofInt 8 r, BitVec.ofInt 8 g, BitVec.ofInt 8 b⟩
  else .error (channelMask r g b)

/-- `r0` of DEC_CHUNK: the kind code in 2:0, the bytes consumed in 5:3, the pixel count in 12:6 (R76, R200). -/
def decR0 (k : Kind) (count : Nat) : Word :=
  place 0 k.bits ||| place 3 (BitVec.ofNat 3 k.length) ||| place 6 (BitVec.ofNat 7 count)

/-- The end of every successful DEC_CHUNK: PREV <- p, and the response (R199, R200). -/
def State.decoded (s : State) (k : Kind) (p : Pixel) (count : Nat) : State :=
  { s with prev := p }.respondWords (decR0 k count) (place 0 p.bits)

/-- The end of a DIFF chunk: ChannelRangeError, or Insert and the end (R197, R198). -/
def decodeDelta (k : Kind) (dr dg db : Int) (s : State) : State :=
  match reconstruct s.prev dr dg db with
  | .error mask => s.raise .channelRange mask
  | .ok p => (s.insert p).decoded k p 1

/-- What one unpacked chunk does (R191): RUN repeats PREV (R193), INDEX reads a genuine slot (R194), DIFF_SMALL
and DIFF_MED add to PREV (R195, R196), RGB is literal (R192). Every test stands before every write. -/
def decodeStep (c : Chunk) (s : State) : State :=
  match c with
  | .run n => s.decoded .run s.prev n
  | .index slot =>
      if (s.cacheRead slot).valid then s.decoded .index (s.cacheRead slot).pixel 1
      else s.raise .cacheIntegrity (slot.setWidth 8)
  | .diffSmall dr dg db => decodeDelta .diffSmall dr dg db s
  | .diffMed dg u v => decodeDelta .diffMed (u + dg) dg (v + dg) s
  | .rgb p => (s.insert p).decoded .rgb p 1

/-- DEC_CHUNK (R191): the truncation test first, then the chunk. -/
def execDecChunk (s0 s1 s2 s3 : Byte) (avail : BitVec 3) (s : State) : Host.Outcome State Fault Refusal :=
  runCommand Op.decChunk true
    (fun t =>
      match unpackChunk s0 s1 s2 s3 (availOf avail) with
      | .error info => t.raise .unknownTag info
      | .ok c => decodeStep c t) s

end Sys2Proof.Machine
end

