-- ==== Sys2Proof/Machine/ChunkRows.lean ====
section
/-! DEFINITION. The five CHUNK rows of spec/opcode_table.json. A chunk is executed when DEC_CHUNK is given its
bytes, so each meaning is the decoder step for that chunk, behind the gate of DEC_CHUNK (spec/45_decoder_step.md
R191 to R200; assumption log, entry 3). -/

namespace Sys2Proof.Machine

/-- RGB: the pixel is the three channel bytes (R65, R192). -/
def execRgb (p : Pixel) (s : State) : Host.Outcome State Fault Refusal :=
  runCommand Op.decChunk true (decodeStep (.rgb p)) s

/-- INDEX: the pixel is the genuine entry of the slot; CacheIntegrityError when it is empty (R61, R194). -/
def execIndex (slot : SlotIdx) (s : State) : Host.Outcome State Fault Refusal :=
  runCommand Op.decChunk true (decodeStep (.index slot)) s

/-- DIFF_SMALL: three 2-bit biased deltas on PREV (R63, R155, R195). -/
def execDiffSmall (rr gg bb : BitVec 2) (s : State) : Host.Outcome State Fault Refusal :=
  runCommand Op.decChunk true (decodeStep (diffSmallFields rr gg bb)) s

/-- DIFF_MED: dg, dr−dg and db−dg, biased, on PREV (R62, R156, R196). -/
def execDiffMed (gggggg : BitVec 6) (uuuu vvvv : BitVec 4) (s : State) : Host.Outcome State Fault Refusal :=
  runCommand Op.decChunk true (decodeStep (diffMedFields gggggg uuuu vvvv)) s

/-- RUN: nnnnnn + 1 copies of PREV (R64, R68, R153, R193). -/
def execRun (nnnnnn : BitVec 6) (s : State) : Host.Outcome State Fault Refusal :=
  runCommand Op.decChunk true (decodeStep (runFields nnnnnn)) s

end Sys2Proof.Machine
end

