-- ==== Sys2Proof/Machine/Control.lean ====
section
/-! DEFINITION. The control commands START and STATE_READ (spec/46_control.md R210, R211). -/

namespace Sys2Proof.Machine

/-- START (R210). The mode 3 is reserved and makes the command illegal, which the gate answers. -/
def execStart (m : BitVec 2) (s : State) : Host.Outcome State Fault Refusal :=
  match modeOf m with
  | some mode => runCommand Op.start true (fun t => (t.startImage mode).respondWords 0 0) s
  | none => runCommand Op.start false (fun t => t) s

/-- `r0` of STATE_READ: PREV in 23:0, RUN in 29:24 (R76, R211). -/
def stateReadR0 (s : State) : Word := place 0 s.prev.bits ||| place 24 s.run

/-- `r1` of STATE_READ: MODE in 1:0, ERR.code in 4:2, ERR.info in 12:5 (R76, R211). -/
def stateReadR1 (s : State) : Word := place 0 s.mode.bits ||| place 2 s.err.code.bits ||| place 5 s.err.info

/-- STATE_READ (R211): accepted in every mode and while faulted; no state is written. -/
def execStateRead (s : State) : Host.Outcome State Fault Refusal :=
  runCommand Op.stateRead true (fun t => t.respondWords (stateReadR0 t) (stateReadR1 t)) s

end Sys2Proof.Machine
end

