-- ==== Sys2Proof/Machine/Encoder.lean ====
section
/-! DEFINITION. The encoder step: ENC_PIXEL and ENC_FLUSH (spec/44_encoder_step.md R170 to R183). -/

namespace Sys2Proof.Machine

/-- Steps 3 to 5: the chunk of a pixel that differs from PREV and missed the cache (R177 to R179). -/
def chooseDelta (p prev : Pixel) : Chunk :=
  let (dr, dg, db) := pixelDelta p prev
  if diffSmallFits dr dg db then .diffSmall dr dg db
  else if diffMedFits dg (dr - dg) (db - dg) then .diffMed dg (dr - dg) (db - dg)
  else .rgb p

/-- Steps 2 to 5: INDEX on a hit, else the delta or literal chunk (R171, R175 to R179). -/
def chooseChunk (p prev : Pixel) (hit : Bool) : Chunk :=
  if hit then .index (pixHash p) else chooseDelta p prev

/-- `r0` of ENC_PIXEL: the kind code in 2:0, ran in bit 3 (R76, R172). -/
def encR0 (k : Kind) (ran : Bool) : Word := place 0 k.bits ||| place 3 (bit ran)

/-- The bytes that close the open run: PackRun(RUN), or nothing when no run is open (R174, R181). -/
def closeRun (run : BitVec 6) : List Byte := if run = 0 then [] else (Chunk.run run.toNat).pack

/-- A pixel equal to PREV: counted into the open run, which is emitted when it reaches 62 (R173). -/
def encodeRepeat (s : State) : State :=
  if s.run + 1 = BitVec.ofNat 6 Config.runMax then
    { s with run := 0 }.respondBytes (Chunk.run Config.runMax).pack (encR0 .run true)
  else { s with run := s.run + 1 }.respondBytes [] (encR0 .noChunk false)

/-- A pixel that differs from PREV: the open run is closed, the cache probed, the chunk chosen and emitted, and
PREV set (R174 to R180). -/
def encodeChange (p : Pixel) (s : State) : State :=
  let probed := s.probe p
  let c := chooseChunk p s.prev probed.1
  { probed.2 with run := 0, prev := p }.respondBytes (closeRun s.run ++ c.pack) (encR0 c.kind (s.run != 0))

/-- The body of ENC_PIXEL (R172). -/
def encodePixel (p : Pixel) (s : State) : State :=
  if pixelsEqual p s.prev then encodeRepeat s else encodeChange p s

/-- ENC_PIXEL (R172). -/
def execEncPixel (p : Pixel) (s : State) : Host.Outcome State Fault Refusal :=
  runCommand Op.encPixel true (encodePixel p) s

/-- ENC_FLUSH (R181): a trailing open run is emitted; PREV, the cache and MODE stay. -/
def execEncFlush (s : State) : Host.Outcome State Fault Refusal :=
  runCommand Op.encFlush true (fun t => { t with run := 0 }.respondBytes (closeRun t.run) 0) s

end Sys2Proof.Machine
end

