-- ==== Sys2Proof/Machine/PixelUnit.lean ====
section
/-! DEFINITION. The pixel unit's commands PIX_EQ, PIX_HASH and PIX_DELTA (spec/40_pixel.md R100 to R103). None
of them reads or writes block state. -/

namespace Sys2Proof.Machine

/-- PIX_EQ (R100): r0[0] = 1 when the pixels are componentwise equal. -/
def execPixEq (p q : Pixel) (s : State) : Host.Outcome State Fault Refusal :=
  runCommand Op.pixEq true (fun t => t.respondWords (place 0 (bit (pixelsEqual p q))) 0) s

/-- PIX_HASH (R101): r0[5:0] = PixHash(p). -/
def execPixHash (p : Pixel) (s : State) : Host.Outcome State Fault Refusal :=
  runCommand Op.pixHash true (fun t => t.respondWords (place 0 (pixHash p)) 0) s

/-- Three deltas as `tc_9` in bits 26:18, 17:9, 8:0 of a result word (R76, R77). -/
def deltaResult (x y z : Int) : Word := deltaWord (tc9 x) (tc9 y) (tc9 z)

/-- PIX_DELTA (R103): r0 = the componentwise difference p − q. -/
def execPixDelta (p q : Pixel) (s : State) : Host.Outcome State Fault Refusal :=
  runCommand Op.pixDelta true
    (fun t => t.respondWords (deltaResult (pixelDelta p q).1 (pixelDelta p q).2.1 (pixelDelta p q).2.2) 0) s

end Sys2Proof.Machine
end

