-- ==== Sys2Proof/Machine/Dispatch.lean ====
section
/-! DEFINITION. One arm per constructor of Instr, each a direct call of that instruction's meaning. -/

namespace Sys2Proof.Machine

/-- What an instruction does to the machine. -/
def exec (i : Instr) (s : State) : Host.Outcome State Fault Refusal :=
  match i with
  | .start m => Sys2Proof.Machine.execStart m s
  | .stateRead => Sys2Proof.Machine.execStateRead s
  | .cacheRead slot => Sys2Proof.Machine.execCacheRead slot s
  | .cacheClear => Sys2Proof.Machine.execCacheClear s
  | .cacheProbe p => Sys2Proof.Machine.execCacheProbe p s
  | .cacheInsert p => Sys2Proof.Machine.execCacheInsert p s
  | .pixEq p q => Sys2Proof.Machine.execPixEq p q s
  | .pixHash p => Sys2Proof.Machine.execPixHash p s
  | .pixDelta p q => Sys2Proof.Machine.execPixDelta p q s
  | .packRun n => Sys2Proof.Machine.execPackRun n s
  | .packIndex slot => Sys2Proof.Machine.execPackIndex slot s
  | .packDiffSmall dr dg db => Sys2Proof.Machine.execPackDiffSmall dr dg db s
  | .packDiffMed dg u v => Sys2Proof.Machine.execPackDiffMed dg u v s
  | .packRgb p => Sys2Proof.Machine.execPackRgb p s
  | .unpack s0 s1 s2 s3 avail => Sys2Proof.Machine.execUnpack s0 s1 s2 s3 avail s
  | .encPixel p => Sys2Proof.Machine.execEncPixel p s
  | .encFlush => Sys2Proof.Machine.execEncFlush s
  | .decChunk s0 s1 s2 s3 avail => Sys2Proof.Machine.execDecChunk s0 s1 s2 s3 avail s
  | .rgb p => Sys2Proof.Machine.execRgb p s
  | .index slot => Sys2Proof.Machine.execIndex slot s
  | .diffSmall rr gg bb => Sys2Proof.Machine.execDiffSmall rr gg bb s
  | .diffMed gggggg uuuu vvvv => Sys2Proof.Machine.execDiffMed gggggg uuuu vvvv s
  | .run nnnnnn => Sys2Proof.Machine.execRun nnnnnn s

end Sys2Proof.Machine
end

