-- ==== Sys2Proof/Machine/Step.lean ====
section
/-! DEFINITION. One step: the host's next request, decoded and executed as one atomic command
(spec/00_scope.md R9, spec/20_memory.md R48, R52). -/

namespace Sys2Proof.Machine

/-- One step. With nothing requested the block holds its state; a request the decoder rejects is taken by
`State.takeRejected`. -/
def step (s : State) : Host.Outcome State Fault Refusal :=
  match s.fetch with
  | none => .next s.hold
  | some (r, t) =>
    match decode r with
    | .ok i => exec i t
    | .error e => .next (t.takeRejected e)

/-- `s` with the instruction of a table word presented as the host's next request, which is what the next step
takes (assumption log, entries 4 and 12). -/
def State.withFetchWord (s : State) (nbits w : Nat) : State := s.present (requestOfTableWord nbits w)

end Sys2Proof.Machine
end

