-- ==== Sys2Proof/Machine/Image.lean ====
section
/-! DEFINITION. The two host sequences ENCODE_IMAGE and DECODE_IMAGE of spec/30_encoding.md rule R81, which the
spec calls pseudo-commands: the block never sees them. And the files around their streams, header, chunks and
footer, of rules R44, R45, R264 and R265: surrounding software that R7 puts outside the block (assumption log,
entry 18). -/

namespace Sys2Proof.Machine

/-- The host issues one command and reads its response: the response and the state, or `none` when the response
carries an error, which ends the image (R243). -/
def hostCommand (i : Instr) (s : State) : Option (Response × State) :=
  match exec i s with
  | .next t =>
    match t.rsp with
    | some r => if r.err = .noError then some (r, t) else none
    | none => none
  | .fault _ => none
  | .refused _ => none

/-- `ENC_PIXEL pi` for every pixel in order: the bytes of all responses, and the state (R81, R264). -/
def encodePixels : List Pixel → State → Option (List Byte × State)
  | [], s => some ([], s)
  | p :: ps, s =>
    match hostCommand (.encPixel p) s with
    | none => none
    | some (r, t) =>
      match encodePixels ps t with
      | none => none
      | some (bytes, u) => some (r.bytes ++ bytes, u)

/-- `ENCODE_IMAGE`: START ENCODE, every pixel, ENC_FLUSH; the chunk stream and the state (R81). -/
def encodeImage (pixels : List Pixel) (s : State) : Option (List Byte × State) :=
  match hostCommand (.start 1) s with
  | none => none
  | some (_, t) =>
    match encodePixels pixels t with
    | none => none
    | some (bytes, u) =>
      match hostCommand .encFlush u with
      | none => none
      | some (r, v) => some (bytes ++ r.bytes, v)

/-- DEC_CHUNK with the next up to 4 bytes of the stream (R81, R191). -/
def presentChunk (stream : List Byte) : Instr :=
  .decChunk (stream.getD 0 0) (stream.getD 1 0) (stream.getD 2 0) (stream.getD 3 0)
    (BitVec.ofNat 3 (min stream.length Config.maxChunkBytes))

/-- The bytes a DEC_CHUNK response says were consumed: r0[5:3] (R200). -/
def consumedOf (r : Response) : Nat := (fieldAt r.r0 3 3).toNat

/-- The pixel count of a DEC_CHUNK response: r0[12:6] (R76). -/
def countOf (r : Response) : Nat := (fieldAt r.r0 6 7).toNat

/-- DEC_CHUNK until `need` pixels are produced, advancing by the bytes consumed. A RUN that overshoots is a
corrupt stream (R269). `fuel` bounds the number of chunks; every chunk gives at least one pixel, so `need` of
it is enough. -/
def decodePixels : Nat → Nat → List Byte → State → Option (List Pixel × State)
  | _, 0, _, s => some ([], s)
  | 0, _ + 1, _, _ => none
  | fuel + 1, need + 1, stream, s =>
    match hostCommand (presentChunk stream) s with
    | none => none
    | some (r, t) =>
      if need + 1 < countOf r then none
      else
        match decodePixels fuel (need + 1 - countOf r) (stream.drop (consumedOf r)) t with
        | none => none
        | some (pixels, u) => some (List.replicate (countOf r) (pixelField r.r1) ++ pixels, u)

/-- `DECODE_IMAGE n, stream`: START DECODE, then chunks until n pixels are produced (R81). -/
def decodeImage (n : Nat) (stream : List Byte) (s : State) : Option (List Pixel × State) :=
  match hostCommand (.start 2) s with
  | none => none
  | some (_, t) => decodePixels n n stream t

/-! ### Files (R44, R45, R264, R265) -/

/-- A 32-bit integer, most significant byte first (R44). -/
def bigEndian (w : Word) : List Byte := [fieldAt w 24 8, fieldAt w 16 8, fieldAt w 8 8, fieldAt w 0 8]

/-- The 14-byte header: magic, width, height, channels, colorspace 0 (R44). -/
def headerBytes (width height : Word) : List Byte :=
  [Config.magic.1, Config.magic.2.1, Config.magic.2.2.1, Config.magic.2.2.2] ++ bigEndian width ++
    bigEndian height ++ [Config.hdrChannels, 0]

/-- The 8-byte footer: seven zero bytes and one byte 1 (R45). -/
def footerBytes : List Byte := [0, 0, 0, 0, 0, 0, 0, 1]

/-- The host's encoding of an image: header, chunk stream, footer, in that order (R264). -/
def encodeFile (width height : Word) (pixels : List Pixel) (s : State) : Option (List Byte × State) :=
  match encodeImage pixels s with
  | none => none
  | some (bytes, t) => some (headerBytes width height ++ bytes ++ footerBytes, t)

/-- What the host's decoding of a file comes to. -/
inductive FileResult where
  /-- the image: width, height and its pixels -/
  | image (width height : Word) (pixels : List Pixel)
  /-- the magic does not match: FormatError, which is the host's (R232, R265) -/
  | formatError
  /-- the header is cut short, a DEC_CHUNK raised an error, or a RUN overshot: everything is invalid (R243, R269) -/
  | corrupt
  deriving DecidableEq, Repr

/-- The host's decoding of a file: the header's magic is checked, its channel and colorspace bytes are not; then
width × height pixels; the footer is skipped unread (R265, R201). -/
def decodeFile (bytes : List Byte) (s : State) : FileResult :=
  match bytes with
  | m0 :: m1 :: m2 :: m3 :: w0 :: w1 :: w2 :: w3 :: h0 :: h1 :: h2 :: h3 :: _ :: _ :: stream =>
    if (m0, m1, m2, m3) = Config.magic then
      let width := streamWord w0 w1 w2 w3
      let height := streamWord h0 h1 h2 h3
      match decodeImage (width.toNat * height.toNat) stream s with
      | some (pixels, _) => .image width height pixels
      | none => .corrupt
    else .formatError
  | _ => .corrupt

end Sys2Proof.Machine
end

