-- ==== Sys2Proof/Safety.lean ====
section
/-! DEFINITION. The terms in which claims speak of a safe run: the invariants of the state that
spec/10_state.md and spec/41_cache.md give, and which states the host cannot tell apart. -/

namespace Sys2Proof.Machine

/-- The slot invariant: a genuine entry of slot s has hash s (R120). -/
def State.SlotsHashed (s : State) : Prop :=
  ∀ slot : SlotIdx, (s.cacheRead slot).valid = true → pixHash (s.cacheRead slot).pixel = slot

/-- Between commands RUN holds a value in [0,61] (R23). -/
def State.RunBounded (s : State) : Prop := s.run.toNat ≤ 61

/-- Only an image being encoded has an open run: ENC_PIXEL alone counts one, and every START clears it (R20,
R210, R213). -/
def State.RunOnlyWhenEncoding (s : State) : Prop := s.mode ≠ .encode → s.run = 0

/-- The block never latches FormatError, and ERR.info is 0 while ERR.code is (R25, R232, R33). -/
def State.ErrLegal (s : State) : Prop :=
  s.err.code ≠ .formatError ∧ (s.err.code = .noError → s.err.info = 0)

/-- The invariant of the block's state between commands. -/
structure State.Inv (s : State) : Prop where
  slots : s.SlotsHashed
  run : s.RunBounded
  runMode : s.RunOnlyWhenEncoding
  err : s.ErrLegal

/-- Two caches that agree in every CV[s], and in CP[s] wherever CV[s] = 1 (R30, R121). -/
def State.SameCache (s t : State) : Prop :=
  ∀ slot : SlotIdx, (s.cacheRead slot).valid = (t.cacheRead slot).valid ∧
    ((s.cacheRead slot).valid = true → (s.cacheRead slot).pixel = (t.cacheRead slot).pixel)

/-- Two states that differ in the pixels of empty slots only, and in what the host has already been given
(R30, R261). -/
structure State.SameObservable (s t : State) : Prop where
  prev : s.prev = t.prev
  run : s.run = t.run
  mode : s.mode = t.mode
  err : s.err = t.err
  cache : s.SameCache t
  pending : s.pending = t.pending

/-- A step that is safe: the machine goes on, in a state with the invariant. -/
def SafeOutcome : Host.Outcome State Fault Refusal → Prop
  | .next s => s.Inv
  | .fault _ => False
  | .refused _ => False

end Sys2Proof.Machine
end

