-- ==== Sys2Proof/Certificates/Slice0/Obligations.lean ====
section
/-! DEFINITION. The statements for the provers. The section Claims says, in the numbers of the spec and apart
from the model's own helpers, what the statements compare the machine with. Where a statement speaks of `pending`
or `rsp` it speaks of the model's own fields: the queue of the host's requests (assumption log, entry 1) and the
place where the response of R75 is given to the host (entry 2). -/

namespace Sys2Proof.Claims

open Sys2Proof.Machine

/-! ### The spec's numbers -/

/-- Bits hi..lo of a word, as a number (R11). -/
def bitsOf (w : Word) (hi lo : Nat) : Nat := w.toNat / 2 ^ lo % 2 ^ (hi + 1 - lo)

/-- A 9-bit field as two's complement: −256..255 (R12, R74). -/
def signed9 (n : Nat) : Int := if n < 256 then n else (n : Int) - 512

/-- The word has the three 9-bit deltas x, y, z in bits 26:18, 17:9, 8:0, and zeros above (R76, R77). -/
def HasDeltas (w : Word) (x y z : Int) : Prop :=
  signed9 (bitsOf w 26 18) = x ∧ signed9 (bitsOf w 17 9) = y ∧ signed9 (bitsOf w 8 0) = z ∧ bitsOf w 31 27 = 0

/-- A pixel as the number its 24-bit field holds: r in 23:16, g in 15:8, b in 7:0 (R13). -/
def pixelNumber (p : Pixel) : Nat := 65536 * p.r.toNat + 256 * p.g.toNat + p.b.toNat

/-- The slot of a pixel: (3·r + 5·g + 7·b) mod 64 (R101, R110). -/
def slotOf (p : Pixel) : SlotIdx := BitVec.ofNat 6 ((3 * p.r.toNat + 5 * p.g.toNat + 7 * p.b.toNat) % 64)

/-- The number of a mode (R24). -/
def modeNumber : Mode → Nat
  | .idle => 0
  | .encode => 1
  | .decode => 2

/-- The number of an error code (R231). -/
def errNumber : ErrCode → Nat
  | .noError => 0
  | .formatError => 1
  | .cacheIntegrity => 2
  | .unknownTag => 3
  | .rangeError => 4
  | .channelRange => 5
  | .modeError => 6
  | .illegalCommand => 7

/-- The pixel in bits 23:0 of a word: r in 23:16, g in 15:8, b in 7:0 (R13, R74). -/
def pixelOf (w : Word) : Pixel :=
  ⟨BitVec.ofNat 8 (bitsOf w 23 16), BitVec.ofNat 8 (bitsOf w 15 8), BitVec.ofNat 8 (bitsOf w 7 0)⟩

/-- A record with this op decodes, whatever its operand words, to the instruction whose operands are the fields
that `f` takes from `a` and `b`; every other bit of the two words is ignored (R73, R74). -/
def Reads (op : BitVec 5) (f : Word → Word → Instr) : Prop :=
  ∀ a b : Word, decode (.command ⟨op, a, b⟩) = .ok (f a b)

/-- The number of an `avail` operand: min(b[2:0], 4) (R74, R157). -/
def availNumber (avail : BitVec 3) : Nat := if avail.toNat < 4 then avail.toNat else 4

/-! ### Responses and states -/

/-- The block is not faulted (R25). -/
def Ready (s : State) : Prop := s.err.code = .noError

/-- The block is not faulted, and in this mode. -/
def ReadyIn (m : Mode) (s : State) : Prop := s.err.code = .noError ∧ s.mode = m

/-- A successful response without stream bytes. -/
def words (r0 r1 : Word) : Response := ⟨.noError, 0, 0, #v[0, 0, 0, 0, 0], r0, r1⟩

/-- A successful response with stream bytes, the unused places 0 (R75). -/
def stream (bytes : List Byte) (r0 : Word) : Response :=
  ⟨.noError, 0, BitVec.ofNat 3 bytes.length,
    #v[bytes.getD 0 0, bytes.getD 1 0, bytes.getD 2 0, bytes.getD 3 0, bytes.getD 4 0], r0, 0⟩

/-- An error response: err and info, every other field 0 (R75, R237). -/
def errorResponse (code : ErrCode) (info : Byte) : Response := ⟨code, info, 0, #v[0, 0, 0, 0, 0], 0, 0⟩

/-- `s` with nothing changed but the response given to the host. -/
def answered (s : State) (r : Response) : State := { s with rsp := some r }

/-- `s` after an error: only ERR is written, and the error response given (R237). -/
def raised (s : State) (code : ErrCode) (info : Byte) : State :=
  { s with err := ⟨code, info⟩, rsp := some (errorResponse code info) }

/-- The commands that START, the row being legal, lets through: mode 3 is reserved (R210). -/
def LegalStart (i : Instr) : Prop := ∃ m : BitVec 2, i = .start m ∧ m ≠ 3

/-- `t` differs from `s` in the cache alone, beside the response: and there only in slot `h`, which now holds p. -/
def SlotWritten (s t : State) (p : Pixel) : Prop :=
  t.cacheRead (slotOf p) = ⟨true, p⟩ ∧ ∀ slot, slot ≠ slotOf p → t.cacheRead slot = s.cacheRead slot

/-- The mode a command requires and its op, for the commands that require one (R73, R213). A chunk is consumed
by DEC_CHUNK (assumption log, entry 3). -/
def modeRequired : Instr → Option (Mode × Byte)
  | .cacheClear => some (.idle, 0x04)
  | .cacheProbe _ => some (.idle, 0x05)
  | .cacheInsert _ => some (.idle, 0x06)
  | .encPixel _ => some (.encode, 0x1C)
  | .encFlush => some (.encode, 0x1D)
  | .decChunk _ _ _ _ _ => some (.decode, 0x1E)
  | .rgb _ => some (.decode, 0x1E)
  | .index _ => some (.decode, 0x1E)
  | .diffSmall _ _ _ => some (.decode, 0x1E)
  | .diffMed _ _ _ => some (.decode, 0x1E)
  | .run _ => some (.decode, 0x1E)
  | _ => none

/-- Is the instruction a command of R73? The other five are the chunk rows. -/
def isCommand : Instr → Bool
  | .rgb _ => false
  | .index _ => false
  | .diffSmall _ _ _ => false
  | .diffMed _ _ _ => false
  | .run _ => false
  | _ => true

/-- DEC_CHUNK, and the chunks it consumes. -/
def isDecode : Instr → Bool
  | .decChunk _ _ _ _ _ => true
  | .rgb _ => true
  | .index _ => true
  | .diffSmall _ _ _ => true
  | .diffMed _ _ _ => true
  | .run _ => true
  | _ => false

/-- START. -/
def isStart : Instr → Bool
  | .start _ => true
  | _ => false

/-- ENC_PIXEL. -/
def isEncPixel : Instr → Bool
  | .encPixel _ => true
  | _ => false

/-- CACHE_PROBE and CACHE_INSERT. -/
def isCacheWrite : Instr → Bool
  | .cacheProbe _ => true
  | .cacheInsert _ => true
  | _ => false

/-- The commands that R49 calls free of side effects and idempotent: the two reads, and PIX, PACK and UNPACK. -/
def isPure : Instr → Bool
  | .stateRead => true
  | .cacheRead _ => true
  | .pixEq _ _ => true
  | .pixHash _ => true
  | .pixDelta _ _ => true
  | .packRun _ => true
  | .packIndex _ => true
  | .packDiffSmall _ _ _ => true
  | .packDiffMed _ _ _ => true
  | .packRgb _ => true
  | .unpack _ _ _ _ _ => true
  | _ => false

/-- The op values R73 leaves unassigned. -/
def unassignedOps : List (BitVec 5) :=
  [0x00, 0x07, 0x0B, 0x0C, 0x0D, 0x0E, 0x0F, 0x15, 0x16, 0x17, 0x19, 0x1A, 0x1B, 0x1F]

/-- The bits of operand a that R74 lists for an op. -/
def listedA (op : BitVec 5) : Word :=
  if op = 0x01 then 0x3
  else if op = 0x03 then 0x3F
  else if op = 0x05 ∨ op = 0x06 ∨ op = 0x08 ∨ op = 0x09 ∨ op = 0x0A ∨ op = 0x14 ∨ op = 0x1C then 0xFFFFFF
  else if op = 0x10 ∨ op = 0x11 then 0xFF
  else if op = 0x12 ∨ op = 0x13 then 0x7FFFFFF
  else if op = 0x18 ∨ op = 0x1E then 0xFFFFFFFF
  else 0

/-- The bits of operand b that R74 lists for an op. -/
def listedB (op : BitVec 5) : Word :=
  if op = 0x08 ∨ op = 0x0A then 0xFFFFFF else if op = 0x18 ∨ op = 0x1E then 0x7 else 0

/-! ### What the encoder emits (R172 to R179) -/

/-- The RUN byte of an open run, if there is one (R64, R174). -/
def openRunBytes (run : BitVec 6) : List Byte := if run = 0 then [] else [BitVec.ofNat 8 (0xC0 + run.toNat - 1)]

/-- The bit of r0 that says a RUN chunk was emitted: r0[3] (R76). -/
def ranNumber (run : BitVec 6) : Nat := if run = 0 then 0 else 8

/-- The chunk of a pixel that differs from the previous one and missed the cache, and its kind code: DIFF_SMALL,
else DIFF_MED, else RGB (R177 to R179, R62, R63, R65, R78). -/
def missChunk (p q : Pixel) : List Byte × Nat :=
  let dr : Int := (p.r.toNat : Int) - q.r.toNat
  let dg : Int := (p.g.toNat : Int) - q.g.toNat
  let db : Int := (p.b.toNat : Int) - q.b.toNat
  if (-2 ≤ dr ∧ dr ≤ 1) ∧ (-2 ≤ dg ∧ dg ≤ 1) ∧ (-2 ≤ db ∧ db ≤ 1) then
    ([BitVec.ofInt 8 (64 + 16 * (dr + 2) + 4 * (dg + 2) + (db + 2))], 1)
  else if (-32 ≤ dg ∧ dg ≤ 31) ∧ (-8 ≤ dr - dg ∧ dr - dg ≤ 7) ∧ (-8 ≤ db - dg ∧ db - dg ≤ 7) then
    ([BitVec.ofInt 8 (128 + (dg + 32)), BitVec.ofInt 8 (16 * (dr - dg + 8) + (db - dg + 8))], 2)
  else ([0xFE, p.r, p.g, p.b], 4)

/-! ### What the decoder does with a difference (R195 to R200) -/

/-- Is a reconstructed channel outside [0,255]? -/
abbrev OutOfRange (x : Int) : Prop := x < 0 ∨ 255 < x

/-- The info byte of ChannelRangeError: bit 2 for r, bit 1 for g, bit 0 for b (R197). -/
def rangeMask (r g b : Int) : Nat :=
  (if OutOfRange r then 4 else 0) + (if OutOfRange g then 2 else 0) + (if OutOfRange b then 1 else 0)

/-- The outcome `o` of a decoder step taken in `s`: pixel p, `count` copies of it, from a chunk of this kind code
and length. PREV is p, the cache is written at slot PixHash(p) or not at all, and nothing else changes but the
response (R191, R198 to R200). -/
def Decodes (s : State) (kind length count : Nat) (p : Pixel) (writes : Bool)
    (o : Host.Outcome State Fault Refusal) : Prop :=
  ∃ t, o = .next t ∧ t.prev = p ∧
    (if writes then SlotWritten s t p else ∀ slot, t.cacheRead slot = s.cacheRead slot) ∧
    t.run = s.run ∧ t.mode = s.mode ∧ t.err = s.err ∧ t.pending = s.pending ∧
    t.rsp = some (words (BitVec.ofNat 32 (kind + 8 * length + 64 * count)) (BitVec.ofNat 32 (pixelNumber p)))

/-- The outcome `o` of a decoder step taken in `s` that adds three deltas to PREV on integers: the pixel with those
channels, written to its slot, or ChannelRangeError when a channel leaves [0,255] (R195 to R198). -/
def AddsDeltas (s : State) (kind length : Nat) (dr dg db : Int) (o : Host.Outcome State Fault Refusal) : Prop :=
  let r : Int := s.prev.r.toNat + dr
  let g : Int := s.prev.g.toNat + dg
  let b : Int := s.prev.b.toNat + db
  (¬ OutOfRange r ∧ ¬ OutOfRange g ∧ ¬ OutOfRange b →
    ∃ q : Pixel, (q.r.toNat : Int) = r ∧ (q.g.toNat : Int) = g ∧ (q.b.toNat : Int) = b ∧
      Decodes s kind length 1 q true o) ∧
  (OutOfRange r ∨ OutOfRange g ∨ OutOfRange b →
    o = .next (raised s .channelRange (BitVec.ofNat 8 (rangeMask r g b))))

/-- The outcome `o` of a decoder step taken in `s` that reads a slot: the pixel of a genuine entry, the cache left as
it is, or CacheIntegrityError when the slot is empty (R194). -/
def ReadsSlot (s : State) (slot : SlotIdx) (o : Host.Outcome State Fault Refusal) : Prop :=
  ((s.cacheRead slot).valid = true → Decodes s 0 1 1 (s.cacheRead slot).pixel false o) ∧
  ((s.cacheRead slot).valid = false → o = .next (raised s .cacheIntegrity (BitVec.ofNat 8 slot.toNat)))

end Sys2Proof.Claims

open Sys2Proof Sys2Proof.Machine Sys2Proof.Claims

/-! ## Reset, START and the invariant -/

/-- R260: power-on reset, and a reset the host applies, leave PREV = (0,0,0), RUN = 0, MODE = IDLE, ERR = 0 and every
slot empty, and produce no response (the model then holds none: assumption log, entry 7). -/
def Obligations.ResetLeavesIdleEmptyBlock : Prop :=
  (State.reset.prev = ⟨0, 0, 0⟩ ∧ State.reset.run = 0 ∧ State.reset.mode = .idle ∧
    State.reset.err = ⟨.noError, 0⟩ ∧ State.reset.rsp = none ∧
    ∀ slot, (State.reset.cacheRead slot).valid = false) ∧
  ∀ s rest, s.pending = .reset :: rest →
    ∃ t, step s = .next t ∧ t.prev = ⟨0, 0, 0⟩ ∧ t.run = 0 ∧ t.mode = .idle ∧ t.err = ⟨.noError, 0⟩ ∧
      (∀ slot, (t.cacheRead slot).valid = false) ∧ t.rsp = none ∧ t.pending = rest

/-- R210: START (op 0x01, mode in a[1:0]) with a legal mode, faulted or not, sets MODE, seeds PREV, clears RUN and ERR
and empties every slot (CP stays); with the reserved mode 3 it is an IllegalCommand, and refused while faulted. -/
def Obligations.StartBeginsFreshImage : Prop :=
  (∀ a b : Word, decode (.command ⟨0x01, a, b⟩) =
    if bitsOf a 1 0 = 3 then .error .reservedStartMode else .ok (.start (BitVec.ofNat 2 (bitsOf a 1 0)))) ∧
  (∀ s : State, ∀ m : BitVec 2, m ≠ 3 → ∃ t, exec (.start m) s = .next t ∧
    modeNumber t.mode = m.toNat ∧ t.prev = ⟨0, 0, 0⟩ ∧ t.run = 0 ∧ t.err = ⟨.noError, 0⟩ ∧
    (∀ slot, t.cacheRead slot = ⟨false, (s.cacheRead slot).pixel⟩) ∧
    t.rsp = some (words 0 0) ∧ t.pending = s.pending) ∧
  (∀ s : State, Ready s → exec (.start 3) s = .next (raised s .illegalCommand 0x01)) ∧
  (∀ s : State, ¬ Ready s → exec (.start 3) s = .next (answered s (errorResponse s.err.code s.err.info)))

/-- R261: a reset and START IDLE leave the same observable state, every register equal and every slot empty; the reset
gives no response (the model then holds none: assumption log, entry 7), START IDLE an all-zero one. -/
def Obligations.ResetAndStartIdleAgree : Prop :=
  ∀ s rest, s.pending = .reset :: rest →
    ∃ t u, step s = .next t ∧ exec (.start 0) { s with pending := rest } = .next u ∧ State.SameObservable t u ∧
      (∀ slot, (t.cacheRead slot).valid = false ∧ (u.cacheRead slot).valid = false) ∧
      t.rsp = none ∧ u.rsp = some (words 0 0)

/-- R34: START carries nothing of one image into the next: whatever two states were, after the same legal START
the host cannot tell them apart. -/
def Obligations.StartForgetsThePreviousImage : Prop :=
  ∀ (s t : State) (m : BitVec 2), m ≠ 3 → s.pending = t.pending →
    ∃ s' t', exec (.start m) s = .next s' ∧ exec (.start m) t = .next t' ∧ State.SameObservable s' t' ∧
      s'.rsp = t'.rsp

/-- The reset state meets the invariant (R33, R120). -/
def Obligations.ResetMeetsInvariant : Prop := State.reset.Inv

/-- R120: the slot invariant holds after reset and START and is kept by every step, from every state; and where it
holds, writing the pixel of a genuine slot to the cache again changes nothing. -/
def Obligations.SlotInvariantIsKept : Prop :=
  State.reset.SlotsHashed ∧
  (∀ s t : State, ∀ m : BitVec 2, m ≠ 3 → exec (.start m) s = .next t → t.SlotsHashed) ∧
  (∀ s t : State, s.SlotsHashed → step s = .next t → t.SlotsHashed) ∧
  (∀ (s : State) (slot : SlotIdx), s.SlotsHashed → (s.cacheRead slot).valid = true →
    ∀ slot', (s.insert (s.cacheRead slot).pixel).cacheRead slot' = s.cacheRead slot')

/-- Every step goes on, and keeps the whole invariant: slots hashed, RUN at most 61, a run open in ENCODE only,
no FormatError latched (R23, R120, R232; derived in part). -/
def Obligations.EveryStepKeepsInvariant : Prop := ∀ s : State, s.Inv → SafeOutcome (step s)

/-! ## Inspection and the direct cache commands -/

/-- R211: STATE_READ (op 0x02) returns PREV, RUN, MODE, ERR.code and ERR.info in the places of R76, in every mode and
while faulted, and changes nothing. -/
def Obligations.StateReadReturnsRegisters : Prop :=
  Reads 0x02 (fun _ _ => .stateRead) ∧
  ∀ s : State, ∃ w0 w1, exec .stateRead s = .next (answered s (words w0 w1)) ∧
    bitsOf w0 23 0 = pixelNumber s.prev ∧ bitsOf w0 29 24 = s.run.toNat ∧ bitsOf w0 31 30 = 0 ∧
    bitsOf w1 1 0 = modeNumber s.mode ∧ bitsOf w1 4 2 = errNumber s.err.code ∧
    bitsOf w1 12 5 = s.err.info.toNat ∧ bitsOf w1 31 13 = 0

/-- R116: CACHE_READ (op 0x03, slot in a[5:0]) returns the valid bit, and the pixel when the slot is genuine, else 0; in
every mode and while faulted, and it changes nothing. -/
def Obligations.CacheReadReturnsSlot : Prop :=
  Reads 0x03 (fun a _ => .cacheRead (BitVec.ofNat 6 (bitsOf a 5 0))) ∧
  ∀ (slot : SlotIdx) (s : State), exec (.cacheRead slot) s = .next (answered s (words (BitVec.ofNat 32
    (if (s.cacheRead slot).valid then 0x1000000 + pixelNumber (s.cacheRead slot).pixel else 0)) 0))

/-- R117: CACHE_CLEAR (op 0x04) in IDLE empties every slot and changes nothing else; in another mode it is a
ModeError. -/
def Obligations.CacheClearEmptiesEverySlot : Prop :=
  Reads 0x04 (fun _ _ => .cacheClear) ∧
  (∀ s : State, ReadyIn .idle s → ∃ t, exec .cacheClear s = .next t ∧
    (∀ slot, t.cacheRead slot = ⟨false, (s.cacheRead slot).pixel⟩) ∧ t.prev = s.prev ∧ t.run = s.run ∧
    t.mode = s.mode ∧ t.err = s.err ∧ t.pending = s.pending ∧ t.rsp = some (words 0 0)) ∧
  (∀ s : State, Ready s → s.mode ≠ .idle → exec .cacheClear s = .next (raised s .modeError 0x04))

/-- R118, R112: CACHE_PROBE (op 0x05, pixel in a[23:0]) in IDLE: on a hit nothing is written, on a miss the pixel is
written to its slot and nothing else; r0 is the slot, plus 64 on a hit. In another mode it is a ModeError. -/
def Obligations.CacheProbeHitsOrFills : Prop :=
  Reads 0x05 (fun a _ => .cacheProbe (pixelOf a)) ∧
  (∀ (p : Pixel) (s : State), ReadyIn .idle s →
    (s.cacheRead (slotOf p) = ⟨true, p⟩ → exec (.cacheProbe p) s =
      .next (answered s (words (BitVec.ofNat 32 (64 + (slotOf p).toNat)) 0))) ∧
    (s.cacheRead (slotOf p) ≠ ⟨true, p⟩ → ∃ t, exec (.cacheProbe p) s = .next t ∧ SlotWritten s t p ∧
      t.prev = s.prev ∧ t.run = s.run ∧ t.mode = s.mode ∧ t.err = s.err ∧ t.pending = s.pending ∧
      t.rsp = some (words (BitVec.ofNat 32 (slotOf p).toNat) 0))) ∧
  (∀ (p : Pixel) (s : State), Ready s → s.mode ≠ .idle →
    exec (.cacheProbe p) s = .next (raised s .modeError 0x05))

/-- R119, R113: CACHE_INSERT (op 0x06, pixel in a[23:0]) in IDLE writes the pixel to its slot and nothing else; r0 is the
slot. In another mode it is a ModeError. -/
def Obligations.CacheInsertWritesItsSlot : Prop :=
  Reads 0x06 (fun a _ => .cacheInsert (pixelOf a)) ∧
  (∀ (p : Pixel) (s : State), ReadyIn .idle s → ∃ t, exec (.cacheInsert p) s = .next t ∧ SlotWritten s t p ∧
    t.prev = s.prev ∧ t.run = s.run ∧ t.mode = s.mode ∧ t.err = s.err ∧ t.pending = s.pending ∧
    t.rsp = some (words (BitVec.ofNat 32 (slotOf p).toNat) 0)) ∧
  (∀ (p : Pixel) (s : State), Ready s → s.mode ≠ .idle →
    exec (.cacheInsert p) s = .next (raised s .modeError 0x06))

/-- R114: a write by Probe or Insert replaces whatever its slot held, tells the host nothing of it and touches no other
slot: after an Insert or a Probe of p, a Probe of another pixel of that slot misses and evicts p in turn; and after
an RGB chunk of p the INDEX chunk of that slot gives p, whatever the slot held before. -/
def Obligations.CollisionEvicts : Prop :=
  (∀ (p q : Pixel) (s : State), ReadyIn .idle s → slotOf p = slotOf q → p ≠ q →
    ∃ t u, exec (.cacheInsert p) s = .next t ∧ SlotWritten s t p ∧
      t.rsp = some (words (BitVec.ofNat 32 (slotOf p).toNat) 0) ∧
      exec (.cacheProbe q) t = .next u ∧ SlotWritten t u q ∧
      u.rsp = some (words (BitVec.ofNat 32 (slotOf q).toNat) 0)) ∧
  (∀ (p q : Pixel) (s : State), ReadyIn .idle s → slotOf p = slotOf q → p ≠ q →
    ∃ t u, exec (.cacheProbe p) s = .next t ∧ SlotWritten s t p ∧
      exec (.cacheProbe q) t = .next u ∧ SlotWritten t u q ∧
      u.rsp = some (words (BitVec.ofNat 32 (slotOf q).toNat) 0)) ∧
  (∀ (p : Pixel) (s : State), ReadyIn .decode s →
    ∃ t u, exec (.decChunk 0xFE p.r p.g p.b 4) s = .next t ∧ SlotWritten s t p ∧
      exec (.decChunk (BitVec.ofNat 8 (slotOf p).toNat) 0 0 0 1) t = .next u ∧
      u.rsp = some (words 0x48 (BitVec.ofNat 32 (pixelNumber p))))

/-! ## The pixel unit -/

/-- R100: PIX_EQ (op 0x08, pixels in a[23:0] and b[23:0]) answers 1 exactly when the three channels are equal, and
changes nothing. -/
def Obligations.PixEqComparesChannels : Prop :=
  Reads 0x08 (fun a b => .pixEq (pixelOf a) (pixelOf b)) ∧
  ∀ (p q : Pixel) (s : State), Ready s → exec (.pixEq p q) s =
    .next (answered s (words (if p.r = q.r ∧ p.g = q.g ∧ p.b = q.b then 1 else 0) 0))

/-- R101: PIX_HASH (op 0x09, pixel in a[23:0]) answers (3·r + 5·g + 7·b) mod 64, and changes nothing. -/
def Obligations.PixHashIsWeightedSum : Prop :=
  Reads 0x09 (fun a _ => .pixHash (pixelOf a)) ∧
  ∀ (p : Pixel) (s : State), Ready s → exec (.pixHash p) s =
    .next (answered s (words (BitVec.ofNat 32 ((3 * p.r.toNat + 5 * p.g.toNat + 7 * p.b.toNat) % 64)) 0))

/-- R102: the answer of PIX_HASH is bits 5:0 of the sum, and the same value with the channels reduced mod 64
first; 6-bit arithmetic gives it. -/
def Obligations.PixHashNeedsSixBits : Prop :=
  ∀ (p : Pixel) (s : State), Ready s → ∃ t r, exec (.pixHash p) s = .next t ∧ t.rsp = some r ∧
    r.r0.toNat = (3 * (p.r.toNat % 64) + 5 * (p.g.toNat % 64) + 7 * (p.b.toNat % 64)) % 64 ∧
    r.r0 = (3 * p.r.setWidth 6 + 5 * p.g.setWidth 6 + 7 * p.b.setWidth 6 : BitVec 6).setWidth 32

/-- R103: PIX_DELTA (op 0x0A, pixels in a[23:0] and b[23:0]) answers the three integer differences, which do not wrap,
and changes nothing. -/
def Obligations.PixDeltaDoesNotWrap : Prop :=
  Reads 0x0A (fun a b => .pixDelta (pixelOf a) (pixelOf b)) ∧
  ∀ (p q : Pixel) (s : State), Ready s → ∃ w, exec (.pixDelta p q) s = .next (answered s (words w 0)) ∧
    HasDeltas w ((p.r.toNat : Int) - q.r.toNat) ((p.g.toNat : Int) - q.g.toNat) ((p.b.toNat : Int) - q.b.toNat)

/-! ## Packing and unpacking -/

/-- R131: PACK_RUN (op 0x10, n in a[7:0]) gives the byte 0xC0 + n − 1 for n in 1..62 and RangeError otherwise. -/
def Obligations.PackRunByteOrRangeError : Prop :=
  Reads 0x10 (fun a _ => .packRun (BitVec.ofNat 8 (bitsOf a 7 0))) ∧
  ∀ (n : BitVec 8) (s : State), Ready s →
    (1 ≤ n.toNat ∧ n.toNat ≤ 62 →
      exec (.packRun n) s = .next (answered s (stream [BitVec.ofNat 8 (0xC0 + n.toNat - 1)] 0))) ∧
    (n.toNat = 0 ∨ 63 ≤ n.toNat → exec (.packRun n) s = .next (raised s .rangeError 0x10))

/-- R132: PACK_INDEX (op 0x11, slot in a[7:0]) gives the slot itself for slots up to 63 and RangeError above. -/
def Obligations.PackIndexByteOrRangeError : Prop :=
  Reads 0x11 (fun a _ => .packIndex (BitVec.ofNat 8 (bitsOf a 7 0))) ∧
  ∀ (slot : BitVec 8) (s : State), Ready s →
    (slot.toNat ≤ 63 → exec (.packIndex slot) s = .next (answered s (stream [slot] 0))) ∧
    (64 ≤ slot.toNat → exec (.packIndex slot) s = .next (raised s .rangeError 0x11))

/-- R133: PACK_DIFF_SMALL (op 0x12, deltas in a[26:18], a[17:9], a[8:0]) gives 0x40 + 16·(dr+2) + 4·(dg+2) + (db+2)
when all three deltas are in [−2,1], and one RangeError otherwise. -/
def Obligations.PackDiffSmallByteOrRangeError : Prop :=
  Reads 0x12 (fun a _ => .packDiffSmall (BitVec.ofNat 9 (bitsOf a 26 18)) (BitVec.ofNat 9 (bitsOf a 17 9))
    (BitVec.ofNat 9 (bitsOf a 8 0))) ∧
  ∀ (x y z : BitVec 9) (s : State), Ready s →
    let dr := signed9 x.toNat
    let dg := signed9 y.toNat
    let db := signed9 z.toNat
    ((-2 ≤ dr ∧ dr ≤ 1) ∧ (-2 ≤ dg ∧ dg ≤ 1) ∧ (-2 ≤ db ∧ db ≤ 1) →
      exec (.packDiffSmall x y z) s =
        .next (answered s (stream [BitVec.ofInt 8 (0x40 + 16 * (dr + 2) + 4 * (dg + 2) + (db + 2))] 0))) ∧
    (¬ ((-2 ≤ dr ∧ dr ≤ 1) ∧ (-2 ≤ dg ∧ dg ≤ 1) ∧ (-2 ≤ db ∧ db ≤ 1)) →
      exec (.packDiffSmall x y z) s = .next (raised s .rangeError 0x12))

/-- R134: PACK_DIFF_MED (op 0x13, dg, u, v in a[26:18], a[17:9], a[8:0]) gives 0x80 + (dg+32), then 16·(u+8) + (v+8),
when dg is in [−32,31] and u, v in [−8,7], and RangeError otherwise. -/
def Obligations.PackDiffMedBytesOrRangeError : Prop :=
  Reads 0x13 (fun a _ => .packDiffMed (BitVec.ofNat 9 (bitsOf a 26 18)) (BitVec.ofNat 9 (bitsOf a 17 9))
    (BitVec.ofNat 9 (bitsOf a 8 0))) ∧
  ∀ (x y z : BitVec 9) (s : State), Ready s →
    let dg := signed9 x.toNat
    let u := signed9 y.toNat
    let v := signed9 z.toNat
    ((-32 ≤ dg ∧ dg ≤ 31) ∧ (-8 ≤ u ∧ u ≤ 7) ∧ (-8 ≤ v ∧ v ≤ 7) →
      exec (.packDiffMed x y z) s =
        .next (answered s (stream [BitVec.ofInt 8 (0x80 + (dg + 32)), BitVec.ofInt 8 (16 * (u + 8) + (v + 8))] 0))) ∧
    (¬ ((-32 ≤ dg ∧ dg ≤ 31) ∧ (-8 ≤ u ∧ u ≤ 7) ∧ (-8 ≤ v ∧ v ≤ 7)) →
      exec (.packDiffMed x y z) s = .next (raised s .rangeError 0x13))

/-- R135: PACK_RGB (op 0x14, pixel in a[23:0]) gives 0xFE and the three channels, for every pixel. -/
def Obligations.PackRgbBytes : Prop :=
  Reads 0x14 (fun a _ => .packRgb (pixelOf a)) ∧
  ∀ (p : Pixel) (s : State), Ready s →
    exec (.packRgb p) s = .next (answered s (stream [0xFE, p.r, p.g, p.b] 0))

/-- R157, R150, R151, R77, R67: UNPACK (op 0x18, stream bytes in a, avail in b[2:0]) by its first byte, the chunk's
bytes being present: kind and length in r0, the fields in r1, nothing changed; a chunk cut short is UnknownTagError(avail). -/
def Obligations.UnpackReadsEveryFirstByte : Prop :=
  Reads 0x18 (fun a b => .unpack (BitVec.ofNat 8 (bitsOf a 31 24)) (BitVec.ofNat 8 (bitsOf a 23 16))
    (BitVec.ofNat 8 (bitsOf a 15 8)) (BitVec.ofNat 8 (bitsOf a 7 0)) (BitVec.ofNat 3 (bitsOf b 2 0))) ∧
  ∀ (s0 s1 s2 s3 : Byte) (avail : BitVec 3) (s : State), Ready s →
    let b := s0.toNat
    let n := availNumber avail
    let run := fun (r0 r1 : Word) => exec (.unpack s0 s1 s2 s3 avail) s = .next (answered s (words r0 r1))
    (b ≤ 0x3F → 1 ≤ n → run 0x08 (BitVec.ofNat 32 b)) ∧
    (0x40 ≤ b ∧ b ≤ 0x7F → 1 ≤ n → ∃ w, run 0x09 w ∧
      HasDeltas w ((b / 16 % 4 : Nat) - 2) ((b / 4 % 4 : Nat) - 2) ((b % 4 : Nat) - 2)) ∧
    (0x80 ≤ b ∧ b ≤ 0xBF → 2 ≤ n → ∃ w, run 0x12 w ∧
      HasDeltas w ((b - 0x80 : Nat) - 32) ((s1.toNat / 16 : Nat) - 8) ((s1.toNat % 16 : Nat) - 8)) ∧
    (0xC0 ≤ b ∧ b ≤ 0xFD → 1 ≤ n → run 0x0B (BitVec.ofNat 32 (b - 0xC0 + 1))) ∧
    (b = 0xFE → 4 ≤ n → run 0x24 (BitVec.ofNat 32 (pixelNumber ⟨s1, s2, s3⟩))) ∧
    (b = 0xFF → 1 ≤ n → run 0x0B 64) ∧
    (n = 0 ∨ (0x80 ≤ b ∧ b ≤ 0xBF ∧ n < 2) ∨ (b = 0xFE ∧ n < 4) →
      exec (.unpack s0 s1 s2 s3 avail) s = .next (raised s .unknownTag (BitVec.ofNat 8 n)))

/-- R159: unpacking what a packing function gives returns the fields, for every field tuple in its range; packing
what Unpack returns gives the bytes back, for every first byte but 0xFF, and 0xFF is RUN 64, which does not pack. -/
def Obligations.FieldCodecRoundTrips : Prop :=
  (∀ (c : Chunk) (tail : List Byte) (avail : Nat), c.packable = true → c.pack.length ≤ avail →
    unpackChunk ((c.pack ++ tail).getD 0 0) ((c.pack ++ tail).getD 1 0) ((c.pack ++ tail).getD 2 0)
      ((c.pack ++ tail).getD 3 0) avail = .ok c ∧ c.pack.length = c.kind.length) ∧
  (∀ (s0 s1 s2 s3 : Byte) (avail : Nat) (c : Chunk), s0 ≠ 0xFF → unpackChunk s0 s1 s2 s3 avail = .ok c →
    c.packable = true ∧ c.pack = [s0, s1, s2, s3].take c.kind.length) ∧
  (∀ (s1 s2 s3 : Byte) (avail : Nat), 1 ≤ avail → unpackChunk 0xFF s1 s2 s3 avail = .ok (.run 64)) ∧
  (Chunk.run 64).packable = false

/-! ## The encoder step -/

/-- R172, R171, R174 to R180: ENC_PIXEL (op 0x1C, pixel in a[23:0]) in ENCODE, in its order of priority. A pixel equal to
PREV is counted and emits nothing, unless the run reaches 62, when 0xFD is emitted and RUN cleared. Any other pixel
first closes the open run; then, when its slot holds it, its INDEX byte is emitted and the cache left as it is;
otherwise it is written to its slot and no other, and the first of DIFF_SMALL, DIFF_MED and RGB that fits is emitted;
and PREV is the pixel. -/
def Obligations.EncPixelFollowsThePriorityOrder : Prop :=
  Reads 0x1C (fun a _ => .encPixel (pixelOf a)) ∧
  (∀ s : State, ReadyIn .encode s → s.run.toNat ≤ 60 →
    exec (.encPixel s.prev) s = .next { s with run := s.run + 1, rsp := some (stream [] 0x7) }) ∧
  (∀ s : State, ReadyIn .encode s → s.run.toNat = 61 →
    exec (.encPixel s.prev) s = .next { s with run := 0, rsp := some (stream [0xFD] 0xB) }) ∧
  (∀ (p : Pixel) (s : State), ReadyIn .encode s → s.RunBounded → p ≠ s.prev →
    (s.cacheRead (slotOf p) = ⟨true, p⟩ →
      exec (.encPixel p) s = .next { s with
        run := 0, prev := p,
        rsp := some (stream (openRunBytes s.run ++ [BitVec.ofNat 8 (slotOf p).toNat])
          (BitVec.ofNat 32 (ranNumber s.run))) }) ∧
    (s.cacheRead (slotOf p) ≠ ⟨true, p⟩ →
      ∃ t, exec (.encPixel p) s = .next t ∧ SlotWritten s t p ∧ t.prev = p ∧ t.run = 0 ∧ t.mode = s.mode ∧
        t.err = s.err ∧ t.pending = s.pending ∧
        t.rsp = some (stream (openRunBytes s.run ++ (missChunk p s.prev).1)
          (BitVec.ofNat 32 ((missChunk p s.prev).2 + ranNumber s.run)))))

/-- R173: k pixels equal to PREV, from an open run of r, emit (r+k)/62 bytes 0xFD and leave (r+k) mod 62 in RUN;
nothing else changes. From no open run, 62 of them give one RUN chunk, 63 one and an open run of 1. -/
def Obligations.RunOfRepeatsSplitsAt62 : Prop :=
  ∀ (k : Nat) (s : State), ReadyIn .encode s → s.RunBounded →
    ∃ t, encodePixels (List.replicate k s.prev) s = some (List.replicate ((s.run.toNat + k) / 62) 0xFD, t) ∧
      t.run.toNat = (s.run.toNat + k) % 62 ∧ t.prev = s.prev ∧ t.mode = s.mode ∧ t.err = s.err ∧
      t.cache = s.cache ∧ t.pending = s.pending

/-- R182: the first pixel after START ENCODE is compared with the seed (0,0,0): a first (0,0,0) is counted into the
run and emits nothing, any other pixel misses the empty cache and is coded against the seed; and a RUN of 1 right
after START DECODE gives (0,0,0). -/
def Obligations.FirstPixelIsComparedWithTheSeed : Prop :=
  (∀ s : State, ∃ t u, exec (.start 1) s = .next t ∧ exec (.encPixel ⟨0, 0, 0⟩) t = .next u ∧
    u.run = 1 ∧ u.prev = ⟨0, 0, 0⟩ ∧ u.rsp = some (stream [] 0x7)) ∧
  (∀ (p : Pixel) (s : State), p ≠ ⟨0, 0, 0⟩ → ∃ t u, exec (.start 1) s = .next t ∧ exec (.encPixel p) t = .next u ∧
    u.run = 0 ∧ u.prev = p ∧ SlotWritten t u p ∧
    u.rsp = some (stream (missChunk p ⟨0, 0, 0⟩).1 (BitVec.ofNat 32 (missChunk p ⟨0, 0, 0⟩).2))) ∧
  (∀ s : State, ∃ t u, exec (.start 2) s = .next t ∧ exec (.decChunk 0xC0 0 0 0 1) t = .next u ∧
    u.prev = ⟨0, 0, 0⟩ ∧ u.rsp = some (words 0x4B 0))

/-- R181: ENC_FLUSH (op 0x1D) in ENCODE emits the open run as one byte and clears RUN, or emits nothing; nothing else
changes. -/
def Obligations.FlushClosesOpenRun : Prop :=
  Reads 0x1D (fun _ _ => .encFlush) ∧
  ∀ s : State, ReadyIn .encode s → s.RunBounded →
    exec .encFlush s = .next { s with run := 0, rsp := some (stream (openRunBytes s.run) 0) }

/-- R183: how many bytes one ENC_PIXEL emits, by the kind code in r0[2:0] and the ran bit in r0[3]: 0 when the run
goes on, 1 for the 62nd repeat, and for INDEX, DIFF_SMALL, DIFF_MED and RGB the chunk's 1, 1, 2 or 4 bytes and one
more when an open run is closed first. It never fails. -/
def Obligations.EncPixelOutputBounds : Prop :=
  ∀ (p : Pixel) (s : State), ReadyIn .encode s → s.RunBounded →
    ∃ t r, exec (.encPixel p) s = .next t ∧ t.rsp = some r ∧ r.err = .noError ∧
      let kind := bitsOf r.r0 2 0
      let ran := bitsOf r.r0 3 3
      ((kind = 7 ∧ ran = 0 ∧ r.nout.toNat = 0 ∧ p = s.prev ∧ s.run.toNat ≤ 60) ∨
        (kind = 3 ∧ ran = 1 ∧ r.nout.toNat = 1 ∧ p = s.prev ∧ s.run.toNat = 61) ∨
        (p ≠ s.prev ∧ ran = (if s.run = 0 then 0 else 1) ∧
          ((kind = 0 ∧ r.nout.toNat = 1 + ran) ∨ (kind = 1 ∧ r.nout.toNat = 1 + ran) ∨
            (kind = 2 ∧ r.nout.toNat = 2 + ran) ∨ (kind = 4 ∧ r.nout.toNat = 4 + ran))))

/-- R137: the encoder step never raises RangeError, and every chunk it packs has its fields in range: the chosen chunk
of a pixel, an open run it closes, and the run of 62. -/
def Obligations.EncoderPacksInRange : Prop :=
  (∀ (p : Pixel) (s t : State) (r : Response), Ready s → exec (.encPixel p) s = .next t → t.rsp = some r →
    r.err ≠ .rangeError) ∧
  (∀ (p prev : Pixel) (hit : Bool), (chooseChunk p prev hit).packable = true) ∧
  (∀ s : State, s.RunBounded → s.run ≠ 0 → (Chunk.run s.run.toNat).packable = true) ∧
  (Chunk.run 62).packable = true

/-! ## The decoder step and the chunk rows -/

/-- R191 to R196, R198, R199: DEC_CHUNK (op 0x1E, stream bytes in a, avail in b[2:0]) in DECODE, by its first byte,
the chunk's bytes being present: RUN gives copies of PREV (64 for 0xFF), INDEX the genuine entry of its slot or
CacheIntegrityError, DIFF_SMALL and DIFF_MED add their deltas to PREV or raise ChannelRangeError, RGB is literal; a
chunk cut short is UnknownTagError(avail). Right after START DECODE a RUN gives copies of (0,0,0). -/
def Obligations.DecChunkDecodesOneChunk : Prop :=
  Reads 0x1E (fun a b => .decChunk (BitVec.ofNat 8 (bitsOf a 31 24)) (BitVec.ofNat 8 (bitsOf a 23 16))
    (BitVec.ofNat 8 (bitsOf a 15 8)) (BitVec.ofNat 8 (bitsOf a 7 0)) (BitVec.ofNat 3 (bitsOf b 2 0))) ∧
  ∀ (s0 s1 s2 s3 : Byte) (avail : BitVec 3) (s : State), ReadyIn .decode s →
    let b := s0.toNat
    let n := availNumber avail
    let o := exec (.decChunk s0 s1 s2 s3 avail) s
    (0xC0 ≤ b ∧ b ≠ 0xFE → 1 ≤ n → Decodes s 3 1 (b - 0xC0 + 1) s.prev false o) ∧
    (b ≤ 0x3F → 1 ≤ n → ReadsSlot s (BitVec.ofNat 6 b) o) ∧
    (0x40 ≤ b ∧ b ≤ 0x7F → 1 ≤ n →
      AddsDeltas s 1 1 ((b / 16 % 4 : Nat) - 2) ((b / 4 % 4 : Nat) - 2) ((b % 4 : Nat) - 2) o) ∧
    (0x80 ≤ b ∧ b ≤ 0xBF → 2 ≤ n →
      AddsDeltas s 2 2 (((s1.toNat / 16 : Nat) - 8) + ((b - 0x80 : Nat) - 32)) ((b - 0x80 : Nat) - 32)
        (((s1.toNat % 16 : Nat) - 8) + ((b - 0x80 : Nat) - 32)) o) ∧
    (b = 0xFE → 4 ≤ n → Decodes s 4 4 1 ⟨s1, s2, s3⟩ true o) ∧
    (n = 0 ∨ (0x80 ≤ b ∧ b ≤ 0xBF ∧ n < 2) ∨ (b = 0xFE ∧ n < 4) →
      o = .next (raised s .unknownTag (BitVec.ofNat 8 n))) ∧
    (0xC0 ≤ b ∧ b ≠ 0xFE → 1 ≤ n → ∃ t, exec (.start 2) s = .next t ∧
      Decodes t 3 1 (b - 0xC0 + 1) ⟨0, 0, 0⟩ false (exec (.decChunk s0 s1 s2 s3 avail) t))

/-- The five chunk rows in DECODE, their operands being the stored fields of R60 to R65: each completes as DEC_CHUNK
does on such a chunk. That a chunk row is executed so is the model's reading (assumption log, entry 3). -/
def Obligations.ChunkRowsDecodeTheirFields : Prop :=
  ∀ s : State, ReadyIn .decode s →
    (∀ p : Pixel, Decodes s 4 4 1 p true (exec (.rgb p) s)) ∧
    (∀ slot : SlotIdx, ReadsSlot s slot (exec (.index slot) s)) ∧
    (∀ rr gg bb : BitVec 2, AddsDeltas s 1 1 ((rr.toNat : Int) - 2) ((gg.toNat : Int) - 2) ((bb.toNat : Int) - 2)
      (exec (.diffSmall rr gg bb) s)) ∧
    (∀ (g : BitVec 6) (u v : BitVec 4), AddsDeltas s 2 2 (((u.toNat : Int) - 8) + ((g.toNat : Int) - 32))
      ((g.toNat : Int) - 32) (((v.toNat : Int) - 8) + ((g.toNat : Int) - 32)) (exec (.diffMed g u v) s)) ∧
    (∀ n : BitVec 6, Decodes s 3 1 (n.toNat + 1) s.prev false (exec (.run n) s))

/-- The chunk rows are what DEC_CHUNK executes: in every state and mode, faulted or not, DEC_CHUNK given bytes
that the chunk decoder reads as i is exec of i (assumption log, entry 3). -/
def Obligations.DecChunkExecutesTheChunk : Prop :=
  ∀ (s0 s1 s2 s3 : Byte) (avail : BitVec 3) (s : State) (i : Instr),
    decodeChunk ([s0, s1, s2, s3].take (availNumber avail)) = .ok i →
    exec (.decChunk s0 s1 s2 s3 avail) s = exec i s

/-! ## The gate and the errors -/

/-- R214, R242: while faulted, every command but STATE_READ, CACHE_READ and a legal START is refused: nothing changes
and the latched error is returned; a record that is no legal command is refused as well. -/
def Obligations.FaultedBlockRefuses : Prop :=
  (∀ (i : Instr) (s : State), isCommand i = true → ¬ Ready s → i ≠ .stateRead → (∀ slot, i ≠ .cacheRead slot) →
    ¬ LegalStart i → exec i s = .next (answered s (errorResponse s.err.code s.err.info))) ∧
  (∀ (s : State) (c : Command) (rest : List HostRequest) (e : DecodeReject), ¬ Ready s →
    s.pending = .command c :: rest → decode (.command c) = .error e →
    step s = .next (answered { s with pending := rest } (errorResponse s.err.code s.err.info)))

/-- R213, R238: a command in the wrong mode raises ModeError with info = op; a command without a required mode never
does. -/
def Obligations.WrongModeRaisesModeError : Prop :=
  (∀ (i : Instr) (s : State) (m : Mode) (op : Byte), isCommand i = true → modeRequired i = some (m, op) → Ready s →
    s.mode ≠ m → exec i s = .next (raised s .modeError op)) ∧
  (∀ (i : Instr) (s : State), modeRequired i = none → Ready s →
    ∃ t r, exec i s = .next t ∧ t.rsp = some r ∧ r.err ≠ .modeError)

/-- R212, R239: a record with an unassigned op, or START with mode 3, raises IllegalCommand with info = op, when the
block is not faulted, and changes nothing else; operand bits that no layout lists are ignored, whatever the op. -/
def Obligations.UnassignedOpIsIllegal : Prop :=
  (∀ (op : BitVec 5) (a b : Word) (s : State) (rest : List HostRequest), Ready s →
    s.pending = .command ⟨op, a, b⟩ :: rest → (op ∈ unassignedOps ∨ (op = 0x01 ∧ bitsOf a 1 0 = 3)) →
    step s = .next (raised { s with pending := rest } .illegalCommand (BitVec.ofNat 8 op.toNat))) ∧
  (∀ (op : BitVec 5) (a b : Word) (s : State) (rest : List HostRequest),
    step { s with pending := .command ⟨op, a, b⟩ :: rest } =
      step { s with pending := .command ⟨op, a &&& listedA op, b &&& listedB op⟩ :: rest })

/-- R237: when a command that was not refused answers an error, nothing but ERR was written, with the error's code and
info, and the response carries the error alone; it is never FormatError (R232). -/
def Obligations.ErrorsArePrecise : Prop :=
  ∀ (i : Instr) (s t : State) (r : Response), isCommand i = true → Ready s → exec i s = .next t → t.rsp = some r →
    r.err ≠ .noError → t = raised s r.err r.info ∧ r.err ≠ .formatError

/-- R241: a latched error is left by a legal START and by reset only, which clear ERR and re-initialise the image state;
every other step of a faulted block keeps it. -/
def Obligations.OnlyStartOrResetClearsError : Prop :=
  ∀ s t : State, ¬ Ready s → step s = .next t → t.err ≠ s.err →
    (t.err = ⟨.noError, 0⟩ ∧ t.prev = ⟨0, 0, 0⟩ ∧ t.run = 0 ∧ ∀ slot, (t.cacheRead slot).valid = false) ∧
      ((∃ rest, s.pending = .reset :: rest) ∨
        ∃ c rest, s.pending = .command c :: rest ∧ c.op = 0x01 ∧ bitsOf c.a 1 0 ≠ 3)

/-- R20: each piece of state is written only by the commands its row names. -/
def Obligations.StateIsWrittenOnlyByItsWriters : Prop :=
  ∀ (i : Instr) (s t : State), exec i s = .next t →
    (t.prev ≠ s.prev → isStart i || isEncPixel i || isDecode i) ∧
    (t.run ≠ s.run → isStart i || isEncPixel i || i == .encFlush) ∧
    (t.mode ≠ s.mode → isStart i) ∧
    (t.err ≠ s.err → isStart i = true ∨ ∃ r, t.rsp = some r ∧ r.err ≠ .noError) ∧
    (∀ slot, (t.cacheRead slot).valid ≠ (s.cacheRead slot).valid →
      isStart i || i == .cacheClear || isCacheWrite i || isEncPixel i || isDecode i) ∧
    (∀ slot, (t.cacheRead slot).pixel ≠ (s.cacheRead slot).pixel →
      isCacheWrite i || isEncPixel i || isDecode i) ∧
    t.pending = s.pending

/-- R49: the two reads, and PIX, PACK and UNPACK when they raise no error, change nothing and repeat to the same
result; so does CACHE_CLEAR. -/
def Obligations.PureCommandsAreIdempotent : Prop :=
  (∀ (i : Instr) (s t : State) (r : Response), isPure i = true → exec i s = .next t → t.rsp = some r →
    r.err = .noError → t = answered s r ∧ exec i t = .next t) ∧
  (∀ s t : State, ReadyIn .idle s → exec .cacheClear s = .next t → exec .cacheClear t = .next t)

/-- R75: every command answers with a response, whatever the state: nout at most 5, the places from nout on 0, info 0
without an error, and with an error every field but err and info 0. -/
def Obligations.EveryCommandAnswers : Prop :=
  ∀ (i : Instr) (s : State), ∃ t r, exec i s = .next t ∧ t.rsp = some r ∧ r.nout.toNat ≤ 5 ∧
    (∀ (k : Nat) (hk : k < 5), r.nout.toNat ≤ k → r.out[k] = 0) ∧ (r.err = .noError → r.info = 0) ∧
    (r.err ≠ .noError → r = errorResponse r.err r.info)

/-- R30: the pixel of an empty slot cannot be observed: two states that differ in such pixels only answer alike, at
every step, and stay indistinguishable. -/
def Obligations.EmptySlotPixelsAreUnobservable : Prop :=
  ∀ s t : State, State.SameObservable s t → s.rsp = t.rsp →
    ∃ s' t', step s = .next s' ∧ step t = .next t' ∧ State.SameObservable s' t' ∧ s'.rsp = t'.rsp

/-! ## Encoding -/

/-- Decoding what the encoder writes gives the instruction back, for every well-formed instruction. -/
def Obligations.DecodeOfEncodeIsIdentity : Prop :=
  ∀ i : Instr, i.wellFormed = true → decode (encode i) = .ok i

/-- The other direction: what a record or a list of stream bytes decodes to is well formed, and encodes to that
record with its unlisted bits 0, or to the leading bytes of the list. -/
def Obligations.EncodeOfDecodeIsCanonical : Prop :=
  (∀ (c : Command) (i : Instr), decode (.command c) = .ok i →
    i.wellFormed = true ∧ encode i = .command ⟨c.op, c.a &&& listedA c.op, c.b &&& listedB c.op⟩) ∧
  (∀ (bytes : List Byte) (i : Instr), decode (.chunk bytes) = .ok i →
    i.wellFormed = true ∧ ∃ head tail, bytes = head ++ tail ∧ encode i = .chunk head)

/-- R66: with four bytes present every chunk decodes, and its kind and its length are decided by its first byte alone:
0xFE is RGB, 4 bytes; otherwise the two tag bits choose INDEX, DIFF_SMALL, DIFF_MED (2 bytes) or RUN. -/
def Obligations.EveryFirstByteDecodes : Prop :=
  ∀ (b0 b1 b2 b3 : Byte) (tail : List Byte), ∃ i head rest,
    decode (.chunk (b0 :: b1 :: b2 :: b3 :: tail)) = .ok i ∧
    encode i = .chunk head ∧ b0 :: b1 :: b2 :: b3 :: tail = head ++ rest ∧
    head.length = (if b0.toNat = 0xFE then 4 else if b0.toNat / 64 = 2 then 2 else 1) ∧
    ((∃ p, i = .rgb p) ↔ b0.toNat = 0xFE) ∧
    ((∃ slot, i = .index slot) ↔ b0.toNat ≠ 0xFE ∧ b0.toNat / 64 = 0) ∧
    ((∃ rr gg bb, i = .diffSmall rr gg bb) ↔ b0.toNat ≠ 0xFE ∧ b0.toNat / 64 = 1) ∧
    ((∃ g u v, i = .diffMed g u v) ↔ b0.toNat ≠ 0xFE ∧ b0.toNat / 64 = 2) ∧
    ((∃ n, i = .run n) ↔ b0.toNat ≠ 0xFE ∧ b0.toNat / 64 = 3)

/-- Words written out from the spec's encodings decode to the instructions they stand for (sanity). -/
def Obligations.WrittenWordsDecode : Prop :=
  decode (.chunk [0b01011101]) = .ok (.diffSmall 1 3 1) ∧
  decode (.chunk [0b10101010, 0b10001001]) = .ok (.diffMed 42 8 9) ∧
  decode (.chunk [0b11000000]) = .ok (.run 0) ∧
  decode (.chunk [0b00000101]) = .ok (.index 5) ∧
  decode (.chunk [0b11111110, 200, 10, 30]) = .ok (.rgb ⟨200, 10, 30⟩) ∧
  decode (.command ⟨0b11100, 0x000A0A0B, 0⟩) = .ok (.encPixel ⟨10, 10, 11⟩) ∧
  decode (.command ⟨0b11110, 0xAA895D00, 3⟩) = .ok (.decChunk 0xAA 0x89 0x5D 0x00 3) ∧
  decode (.command ⟨0b10010, 0x07FC03FF, 0⟩) = .ok (.packDiffSmall 511 1 511)

/-! ## Steps -/

/-- A step runs the decoded instruction: when the host's next request decodes to i, the step is exec of i in the
state with that request taken from the queue. With no request queued the step holds the state (R251). -/
def Obligations.StepRunsTheDecodedInstruction : Prop :=
  (∀ (s : State) (r : HostRequest) (rest : List HostRequest) (i : Instr), s.pending = r :: rest →
    decode r = .ok i → step s = exec i { s with pending := rest }) ∧
  (∀ s : State, s.pending = [] → step s = .next s)

/-- A chunk presented with too few bytes is answered as DEC_CHUNK answers it: UnknownTagError with the number of
bytes present, in DECODE and not faulted (R151; assumption log, entry 14). -/
def Obligations.TruncatedPresentationRaises : Prop :=
  ∀ (s : State) (bytes : List Byte) (rest : List HostRequest) (n : Nat), ReadyIn .decode s →
    s.pending = .chunk bytes :: rest → decode (.chunk bytes) = .error (.truncatedChunk n) →
    n = bytes.length ∧ n ≤ 3 ∧
      step s = .next (raised { s with pending := rest } .unknownTag (BitVec.ofNat 8 bytes.length))

/-! ## Images -/

/-- R202: encoding any pixels and decoding the stream, on any two blocks in any states, raises no error and gives
back exactly the pixels; no RUN overshoots. -/
def Obligations.EncodeThenDecodeImageIsIdentity : Prop :=
  ∀ (pixels : List Pixel) (s d : State), ∃ bytes s' d', encodeImage pixels s = some (bytes, s') ∧
    decodeImage pixels.length bytes d = some (pixels, d')

/-- R121: wherever the decoder, working on the stream of an image, has produced exactly a prefix of the pixels, its
cache agrees with the encoder's after that prefix, in every CV and in every CP of a genuine slot. -/
def Obligations.CachesAgreeAfterEveryPrefix : Prop :=
  ∀ (before after : List Pixel) (s s0 e d u : State) (r : Response) (bytes part : List Byte) (s' : State)
    (out : List Pixel),
    hostCommand (.start 1) s = some (r, s0) → encodePixels before s0 = some (part, e) →
    encodeImage (before ++ after) s = some (bytes, s') → decodeImage before.length bytes d = some (out, u) →
    out = before ∧ State.SameCache e u

/-- R264, R265: the file the host writes around the stream of an image of width × height pixels, decoded by the host
on any block, gives back the width, the height and the pixels; a file whose first four bytes are not the magic is
a FormatError. -/
def Obligations.FileRoundTripsThroughTheHost : Prop :=
  (∀ (width height : Word) (pixels : List Pixel) (s d : State), pixels.length = width.toNat * height.toNat →
    ∃ bytes s', encodeFile width height pixels s = some (bytes, s') ∧
      decodeFile bytes d = .image width height pixels) ∧
  (∀ (m0 m1 m2 m3 : Byte) (rest : List Byte) (d : State), (m0, m1, m2, m3) ≠ Config.magic → 10 ≤ rest.length →
    decodeFile (m0 :: m1 :: m2 :: m3 :: rest) d = .formatError)
end

