-- ==== Sys2Proof/Laws/Bits.lean ====
section
/-! SUPPORT. The small laws of the bit-field helpers: a field read from what was placed is what was placed. -/

namespace Sys2Proof

theorem extract_setWidth {n m : Nat} (v : BitVec n) (h : n ≤ m) : (v.setWidth m).extractLsb' 0 n = v := by
  ext i hi
  simp [hi]
  omega

@[simp] theorem fieldAt_setWidth {n : Nat} (v : BitVec n) (h : n ≤ 32) : fieldAt (v.setWidth 32) 0 n = v :=
  extract_setWidth v h

@[simp] theorem pixelField_bits (p : Pixel) : pixelField (p.bits.setWidth 32) = p := by
  cases p
  simp only [pixelField, fieldAt, Pixel.bits, Pixel.mk.injEq]
  refine ⟨?_, ?_, ?_⟩ <;> ext i hi <;> simp <;> grind

/-! ### The words of R74 -/

@[simp] theorem deltaWord_hi (x y z : BitVec 9) : fieldAt (deltaWord x y z) 18 9 = x := by
  ext i hi
  simp [fieldAt, deltaWord]
  grind

@[simp] theorem deltaWord_mid (x y z : BitVec 9) : fieldAt (deltaWord x y z) 9 9 = y := by
  ext i hi
  simp [fieldAt, deltaWord]
  grind

@[simp] theorem deltaWord_lo (x y z : BitVec 9) : fieldAt (deltaWord x y z) 0 9 = z := by
  ext i hi
  simp [fieldAt, deltaWord]
  grind

@[simp] theorem deltaWord_top (x y z : BitVec 9) : fieldAt (deltaWord x y z) 27 5 = 0 := by
  ext i hi
  simp [fieldAt, deltaWord]
  grind

@[simp] theorem streamWord_0 (s0 s1 s2 s3 : Byte) : fieldAt (streamWord s0 s1 s2 s3) 24 8 = s0 := by
  ext i hi
  simp [fieldAt, streamWord]
  grind

@[simp] theorem streamWord_1 (s0 s1 s2 s3 : Byte) : fieldAt (streamWord s0 s1 s2 s3) 16 8 = s1 := by
  ext i hi
  simp [fieldAt, streamWord]
  grind

@[simp] theorem streamWord_2 (s0 s1 s2 s3 : Byte) : fieldAt (streamWord s0 s1 s2 s3) 8 8 = s2 := by
  ext i hi
  simp [fieldAt, streamWord]
  grind

@[simp] theorem streamWord_3 (s0 s1 s2 s3 : Byte) : fieldAt (streamWord s0 s1 s2 s3) 0 8 = s3 := by
  ext i hi
  simp [fieldAt, streamWord]
  grind

/-! ### The bytes of the chunk formats (R60 to R65) -/

@[simp] theorem tagOf_runByte (v : BitVec 6) : tagOf (runByte v) = 3 := by
  ext i hi
  simp [tagOf, runByte]
  grind

@[simp] theorem low6_runByte (v : BitVec 6) : low6 (runByte v) = v := by
  ext i hi
  simp [low6, runByte]
  grind

@[simp] theorem tagOf_indexByte (v : SlotIdx) : tagOf (indexByte v) = 0 := by
  ext i hi
  simp [tagOf, indexByte]
  grind

@[simp] theorem low6_indexByte (v : SlotIdx) : low6 (indexByte v) = v := by
  ext i hi
  simp [low6, indexByte]
  grind

@[simp] theorem tagOf_dsByte (rr gg bb : BitVec 2) : tagOf (dsByte rr gg bb) = 1 := by
  ext i hi
  simp [tagOf, dsByte, Config.dsOrder]
  grind

@[simp] theorem dsFields_dsByte (rr gg bb : BitVec 2) : dsFields (dsByte rr gg bb) = (rr, gg, bb) := by
  simp only [dsFields, dsByte, Config.dsOrder, Prod.mk.injEq]
  refine ⟨?_, ?_, ?_⟩ <;> ext i hi <;> simp <;> grind

@[simp] theorem tagOf_dmByte (v : BitVec 6) : tagOf (2#2 ++ v : BitVec 8) = 2 := by
  ext i hi
  simp [tagOf]
  grind

@[simp] theorem low6_dmByte (v : BitVec 6) : low6 (2#2 ++ v : BitVec 8) = v := by
  ext i hi
  simp [low6]
  grind

@[simp] theorem high_nibble (u v : BitVec 4) : (u ++ v : BitVec 8).extractLsb' 4 4 = u := by
  ext i hi
  simp
  grind

@[simp] theorem low_nibble (u v : BitVec 4) : (u ++ v : BitVec 8).extractLsb' 0 4 = v := by
  ext i hi
  simp
  grind

/-- A chunk byte is its tag and its other 6 bits. -/
theorem byte_of_tag_low6 (b : Byte) : b = tagOf b ++ low6 b := by
  ext i hi
  simp [tagOf, low6]
  grind

/-- A RUN byte is the RGB tag exactly when its field is 62 (R64, R65). -/
theorem runByte_eq_rgbTag (v : BitVec 6) : runByte v = Config.rgbTag ↔ v = 62 := by
  constructor
  · intro h
    have h2 := congrArg low6 h
    rw [low6_runByte] at h2
    exact h2.trans (by decide)
  · rintro rfl
    decide

/-- A byte whose tag is not `11` is not the RGB tag. -/
theorem ne_rgbTag_of_tag {b : Byte} (h : tagOf b ≠ 3) : b ≠ Config.rgbTag := by
  rintro rfl
  exact h (by decide)

/-! ### Result words (R76) -/

namespace Machine

/-- What is placed at `lo` is read back there. -/
theorem place_at {n : Nat} (lo : Nat) (v : BitVec n) (h : lo + n ≤ 32) : fieldAt (place lo v) lo n = v := by
  ext i hi
  simp [fieldAt, place]
  grind

/-- What is placed at `lo` leaves every field outside it 0. -/
theorem place_apart {n : Nat} (lo lo' m : Nat) (v : BitVec n) (h : lo' + m ≤ lo ∨ lo + n ≤ lo') :
    fieldAt (place lo v) lo' m = 0 := by
  ext i hi
  simp only [fieldAt, place, BitVec.getElem_extractLsb', BitVec.getLsbD_shiftLeft, BitVec.getLsbD_setWidth]
  rcases h with h | h
  · simp
    omega
  · have : v.getLsbD (lo' + i - lo) = false := BitVec.getLsbD_of_ge _ _ (by omega)
    simp [this]

theorem fieldAt_or (v w : Word) (lo n : Nat) : fieldAt (v ||| w) lo n = fieldAt v lo n ||| fieldAt w lo n := by
  ext i hi
  simp [fieldAt]

end Machine

end Sys2Proof
end

