-- ==== Sys2Proof/Laws/State.lean ====
section
/-! SUPPORT. One lemma per field of State per update of the machine, each true by unfolding, so that no later
proof unfolds a record update. -/

namespace Sys2Proof.Machine

@[simp] theorem State.cacheWrite_prev (s : State) (slot : SlotIdx) (p : Pixel) :
    (s.cacheWrite slot p).prev = s.prev := rfl
@[simp] theorem State.cacheWrite_run (s : State) (slot : SlotIdx) (p : Pixel) :
    (s.cacheWrite slot p).run = s.run := rfl
@[simp] theorem State.cacheWrite_mode (s : State) (slot : SlotIdx) (p : Pixel) :
    (s.cacheWrite slot p).mode = s.mode := rfl
@[simp] theorem State.cacheWrite_err (s : State) (slot : SlotIdx) (p : Pixel) :
    (s.cacheWrite slot p).err = s.err := rfl
@[simp] theorem State.cacheWrite_cache (s : State) (slot : SlotIdx) (p : Pixel) :
    (s.cacheWrite slot p).cache = s.cache.set slot.toNat ⟨true, p⟩ slot.isLt := rfl
@[simp] theorem State.cacheWrite_pending (s : State) (slot : SlotIdx) (p : Pixel) :
    (s.cacheWrite slot p).pending = s.pending := rfl
@[simp] theorem State.cacheWrite_rsp (s : State) (slot : SlotIdx) (p : Pixel) :
    (s.cacheWrite slot p).rsp = s.rsp := rfl

@[simp] theorem State.cacheClear_prev (s : State) : s.cacheClear.prev = s.prev := rfl
@[simp] theorem State.cacheClear_run (s : State) : s.cacheClear.run = s.run := rfl
@[simp] theorem State.cacheClear_mode (s : State) : s.cacheClear.mode = s.mode := rfl
@[simp] theorem State.cacheClear_err (s : State) : s.cacheClear.err = s.err := rfl
@[simp] theorem State.cacheClear_pending (s : State) : s.cacheClear.pending = s.pending := rfl
@[simp] theorem State.cacheClear_rsp (s : State) : s.cacheClear.rsp = s.rsp := rfl

@[simp] theorem State.respond_prev (s : State) (r : Response) : (s.respond r).prev = s.prev := rfl
@[simp] theorem State.respond_run (s : State) (r : Response) : (s.respond r).run = s.run := rfl
@[simp] theorem State.respond_mode (s : State) (r : Response) : (s.respond r).mode = s.mode := rfl
@[simp] theorem State.respond_err (s : State) (r : Response) : (s.respond r).err = s.err := rfl
@[simp] theorem State.respond_cache (s : State) (r : Response) : (s.respond r).cache = s.cache := rfl
@[simp] theorem State.respond_pending (s : State) (r : Response) : (s.respond r).pending = s.pending := rfl
@[simp] theorem State.respond_rsp (s : State) (r : Response) : (s.respond r).rsp = some r := rfl

@[simp] theorem State.respondWords_prev (s : State) (r0 r1 : Word) : (s.respondWords r0 r1).prev = s.prev := rfl
@[simp] theorem State.respondWords_run (s : State) (r0 r1 : Word) : (s.respondWords r0 r1).run = s.run := rfl
@[simp] theorem State.respondWords_mode (s : State) (r0 r1 : Word) : (s.respondWords r0 r1).mode = s.mode := rfl
@[simp] theorem State.respondWords_err (s : State) (r0 r1 : Word) : (s.respondWords r0 r1).err = s.err := rfl
@[simp] theorem State.respondWords_cache (s : State) (r0 r1 : Word) : (s.respondWords r0 r1).cache = s.cache := rfl
@[simp] theorem State.respondWords_pending (s : State) (r0 r1 : Word) :
    (s.respondWords r0 r1).pending = s.pending := rfl
@[simp] theorem State.respondWords_rsp (s : State) (r0 r1 : Word) :
    (s.respondWords r0 r1).rsp = some { Response.zero with r0 := r0, r1 := r1 } := rfl

@[simp] theorem State.respondBytes_prev (s : State) (bytes : List Byte) (r0 : Word) :
    (s.respondBytes bytes r0).prev = s.prev := rfl
@[simp] theorem State.respondBytes_run (s : State) (bytes : List Byte) (r0 : Word) :
    (s.respondBytes bytes r0).run = s.run := rfl
@[simp] theorem State.respondBytes_mode (s : State) (bytes : List Byte) (r0 : Word) :
    (s.respondBytes bytes r0).mode = s.mode := rfl
@[simp] theorem State.respondBytes_err (s : State) (bytes : List Byte) (r0 : Word) :
    (s.respondBytes bytes r0).err = s.err := rfl
@[simp] theorem State.respondBytes_cache (s : State) (bytes : List Byte) (r0 : Word) :
    (s.respondBytes bytes r0).cache = s.cache := rfl
@[simp] theorem State.respondBytes_pending (s : State) (bytes : List Byte) (r0 : Word) :
    (s.respondBytes bytes r0).pending = s.pending := rfl
@[simp] theorem State.respondBytes_rsp (s : State) (bytes : List Byte) (r0 : Word) :
    (s.respondBytes bytes r0).rsp = some { Response.zero.emitAll bytes with r0 := r0 } := rfl

@[simp] theorem State.raise_prev (s : State) (code : ErrCode) (info : Byte) :
    (s.raise code info).prev = s.prev := rfl
@[simp] theorem State.raise_run (s : State) (code : ErrCode) (info : Byte) : (s.raise code info).run = s.run := rfl
@[simp] theorem State.raise_mode (s : State) (code : ErrCode) (info : Byte) :
    (s.raise code info).mode = s.mode := rfl
@[simp] theorem State.raise_err (s : State) (code : ErrCode) (info : Byte) :
    (s.raise code info).err = ⟨code, info⟩ := rfl
@[simp] theorem State.raise_cache (s : State) (code : ErrCode) (info : Byte) :
    (s.raise code info).cache = s.cache := rfl
@[simp] theorem State.raise_pending (s : State) (code : ErrCode) (info : Byte) :
    (s.raise code info).pending = s.pending := rfl
@[simp] theorem State.raise_rsp (s : State) (code : ErrCode) (info : Byte) :
    (s.raise code info).rsp = some (Response.error code info) := rfl

@[simp] theorem State.refuse_prev (s : State) : s.refuse.prev = s.prev := rfl
@[simp] theorem State.refuse_run (s : State) : s.refuse.run = s.run := rfl
@[simp] theorem State.refuse_mode (s : State) : s.refuse.mode = s.mode := rfl
@[simp] theorem State.refuse_err (s : State) : s.refuse.err = s.err := rfl
@[simp] theorem State.refuse_cache (s : State) : s.refuse.cache = s.cache := rfl
@[simp] theorem State.refuse_pending (s : State) : s.refuse.pending = s.pending := rfl
@[simp] theorem State.refuse_rsp (s : State) : s.refuse.rsp = some (Response.error s.err.code s.err.info) := rfl

@[simp] theorem State.insert_prev (s : State) (p : Pixel) : (s.insert p).prev = s.prev := rfl
@[simp] theorem State.insert_run (s : State) (p : Pixel) : (s.insert p).run = s.run := rfl
@[simp] theorem State.insert_mode (s : State) (p : Pixel) : (s.insert p).mode = s.mode := rfl
@[simp] theorem State.insert_err (s : State) (p : Pixel) : (s.insert p).err = s.err := rfl
@[simp] theorem State.insert_cache (s : State) (p : Pixel) :
    (s.insert p).cache = s.cache.set (pixHash p).toNat ⟨true, p⟩ (pixHash p).isLt := rfl
@[simp] theorem State.insert_pending (s : State) (p : Pixel) : (s.insert p).pending = s.pending := rfl
@[simp] theorem State.insert_rsp (s : State) (p : Pixel) : (s.insert p).rsp = s.rsp := rfl

@[simp] theorem State.startImage_prev (s : State) (m : Mode) : (s.startImage m).prev = Config.seedPrev := rfl
@[simp] theorem State.startImage_run (s : State) (m : Mode) : (s.startImage m).run = 0 := rfl
@[simp] theorem State.startImage_mode (s : State) (m : Mode) : (s.startImage m).mode = m := rfl
@[simp] theorem State.startImage_err (s : State) (m : Mode) : (s.startImage m).err = ⟨.noError, 0⟩ := rfl
@[simp] theorem State.startImage_cache (s : State) (m : Mode) : (s.startImage m).cache = s.cacheClear.cache := rfl
@[simp] theorem State.startImage_pending (s : State) (m : Mode) : (s.startImage m).pending = s.pending := rfl
@[simp] theorem State.startImage_rsp (s : State) (m : Mode) : (s.startImage m).rsp = s.rsp := rfl

@[simp] theorem State.hostReset_prev (s : State) : s.hostReset.prev = Config.seedPrev := rfl
@[simp] theorem State.hostReset_run (s : State) : s.hostReset.run = 0 := rfl
@[simp] theorem State.hostReset_mode (s : State) : s.hostReset.mode = .idle := rfl
@[simp] theorem State.hostReset_err (s : State) : s.hostReset.err = ⟨.noError, 0⟩ := rfl
@[simp] theorem State.hostReset_cache (s : State) : s.hostReset.cache = State.reset.cache := rfl
@[simp] theorem State.hostReset_pending (s : State) : s.hostReset.pending = s.pending := rfl
@[simp] theorem State.hostReset_rsp (s : State) : s.hostReset.rsp = none := rfl

@[simp] theorem State.decoded_prev (s : State) (k : Kind) (p : Pixel) (count : Nat) :
    (s.decoded k p count).prev = p := rfl
@[simp] theorem State.decoded_run (s : State) (k : Kind) (p : Pixel) (count : Nat) :
    (s.decoded k p count).run = s.run := rfl
@[simp] theorem State.decoded_mode (s : State) (k : Kind) (p : Pixel) (count : Nat) :
    (s.decoded k p count).mode = s.mode := rfl
@[simp] theorem State.decoded_err (s : State) (k : Kind) (p : Pixel) (count : Nat) :
    (s.decoded k p count).err = s.err := rfl
@[simp] theorem State.decoded_cache (s : State) (k : Kind) (p : Pixel) (count : Nat) :
    (s.decoded k p count).cache = s.cache := rfl
@[simp] theorem State.decoded_pending (s : State) (k : Kind) (p : Pixel) (count : Nat) :
    (s.decoded k p count).pending = s.pending := rfl
@[simp] theorem State.decoded_rsp (s : State) (k : Kind) (p : Pixel) (count : Nat) :
    (s.decoded k p count).rsp = some { Response.zero with r0 := decR0 k count, r1 := place 0 p.bits } := rfl

@[simp] theorem State.present_prev (s : State) (r : HostRequest) : (s.present r).prev = s.prev := rfl
@[simp] theorem State.present_run (s : State) (r : HostRequest) : (s.present r).run = s.run := rfl
@[simp] theorem State.present_mode (s : State) (r : HostRequest) : (s.present r).mode = s.mode := rfl
@[simp] theorem State.present_err (s : State) (r : HostRequest) : (s.present r).err = s.err := rfl
@[simp] theorem State.present_cache (s : State) (r : HostRequest) : (s.present r).cache = s.cache := rfl
@[simp] theorem State.present_pending (s : State) (r : HostRequest) : (s.present r).pending = r :: s.pending := rfl
@[simp] theorem State.present_rsp (s : State) (r : HostRequest) : (s.present r).rsp = s.rsp := rfl

/-- A state is its seven fields. -/
theorem State.ext_fields {s t : State} (h1 : s.prev = t.prev) (h2 : s.run = t.run) (h3 : s.mode = t.mode)
    (h4 : s.err = t.err) (h5 : s.cache = t.cache) (h6 : s.pending = t.pending) (h7 : s.rsp = t.rsp) : s = t := by
  cases s
  cases t
  simp_all

end Sys2Proof.Machine
end

