-- ==== Sys2Proof/Laws/Ops.lean ====
section
/-! SUPPORT. For each shared operation, what it can do, said once: the cache, the gate, the responses, the pixel
functions. Later proofs cite these instead of unfolding the operations. -/

namespace Sys2Proof.Machine

/-! ### The cache -/

/-- Reading a slot looks at the cache only. -/
theorem State.cacheRead_congr {s t : State} (h : s.cache = t.cache) (slot : SlotIdx) :
    s.cacheRead slot = t.cacheRead slot := by
  simp [State.cacheRead, h]

/-- Read after write: the slot written holds the pixel as a genuine entry, every other slot is as before (R114). -/
theorem State.cacheRead_cacheWrite (s : State) (slot : SlotIdx) (p : Pixel) (slot' : SlotIdx) :
    (s.cacheWrite slot p).cacheRead slot' = if slot' = slot then ⟨true, p⟩ else s.cacheRead slot' := by
  simp only [State.cacheRead, State.cacheWrite, Vector.getElem_set, BitVec.toNat_eq]
  simp [eq_comm]

@[simp] theorem State.cacheRead_cacheWrite_self (s : State) (slot : SlotIdx) (p : Pixel) :
    (s.cacheWrite slot p).cacheRead slot = ⟨true, p⟩ := by
  simp [State.cacheRead_cacheWrite]

theorem State.cacheRead_cacheWrite_other (s : State) {slot slot' : SlotIdx} (p : Pixel) (h : slot' ≠ slot) :
    (s.cacheWrite slot p).cacheRead slot' = s.cacheRead slot' := by
  simp [State.cacheRead_cacheWrite, h]

/-- After a clear every slot is empty; its pixel is the old one, which nothing can observe (R117, R30). -/
@[simp] theorem State.cacheRead_cacheClear (s : State) (slot : SlotIdx) :
    s.cacheClear.cacheRead slot = ⟨false, (s.cacheRead slot).pixel⟩ := by
  simp [State.cacheRead, State.cacheClear, CacheEntry.emptied]

/-- Insert writes slot PixHash(p) and nothing else (R113). -/
theorem State.cacheRead_insert (s : State) (p : Pixel) (slot : SlotIdx) :
    (s.insert p).cacheRead slot = if slot = pixHash p then ⟨true, p⟩ else s.cacheRead slot :=
  s.cacheRead_cacheWrite (pixHash p) p slot

@[simp] theorem State.cacheRead_respond (s : State) (r : Response) (slot : SlotIdx) :
    (s.respond r).cacheRead slot = s.cacheRead slot := rfl

@[simp] theorem State.cacheRead_respondWords (s : State) (r0 r1 : Word) (slot : SlotIdx) :
    (s.respondWords r0 r1).cacheRead slot = s.cacheRead slot := rfl

@[simp] theorem State.cacheRead_respondBytes (s : State) (bytes : List Byte) (r0 : Word) (slot : SlotIdx) :
    (s.respondBytes bytes r0).cacheRead slot = s.cacheRead slot := rfl

@[simp] theorem State.cacheRead_raise (s : State) (code : ErrCode) (info : Byte) (slot : SlotIdx) :
    (s.raise code info).cacheRead slot = s.cacheRead slot := rfl

@[simp] theorem State.cacheRead_refuse (s : State) (slot : SlotIdx) : s.refuse.cacheRead slot = s.cacheRead slot := rfl

@[simp] theorem State.cacheRead_decoded (s : State) (k : Kind) (p : Pixel) (count : Nat) (slot : SlotIdx) :
    (s.decoded k p count).cacheRead slot = s.cacheRead slot := rfl

@[simp] theorem State.cacheRead_startImage (s : State) (m : Mode) (slot : SlotIdx) :
    (s.startImage m).cacheRead slot = ⟨false, (s.cacheRead slot).pixel⟩ :=
  s.cacheRead_cacheClear slot

@[simp] theorem State.cacheRead_reset (slot : SlotIdx) : State.reset.cacheRead slot = CacheEntry.atReset := by
  simp [State.cacheRead, State.reset]

@[simp] theorem State.cacheRead_hostReset (s : State) (slot : SlotIdx) :
    s.hostReset.cacheRead slot = CacheEntry.atReset :=
  State.cacheRead_reset slot

/-! ### Pixels -/

theorem pixelsEqual_iff (p q : Pixel) : pixelsEqual p q = true ↔ p = q := by
  cases p
  cases q
  simp [pixelsEqual, and_assoc]

@[simp] theorem pixelsEqual_self (p : Pixel) : pixelsEqual p p = true := (pixelsEqual_iff p p).2 rfl

theorem pixelsEqual_of_ne {p q : Pixel} (h : p ≠ q) : pixelsEqual p q = false := by
  cases hp : pixelsEqual p q
  · rfl
  · exact absurd ((pixelsEqual_iff p q).1 hp) h

/-- An entry holds p when it is genuine and its pixel is p. -/
theorem CacheEntry.holds_iff (e : CacheEntry) (p : Pixel) : e.holds p = true ↔ e.valid = true ∧ e.pixel = p := by
  simp [CacheEntry.holds, pixelsEqual_iff]

theorem pixHash_toNat (p : Pixel) :
    (pixHash p).toNat = (3 * p.r.toNat + 5 * p.g.toNat + 7 * p.b.toNat) % 64 := by
  simp [pixHash]

/-! ### Probe (R112) -/

/-- What Probe can do: hit and change nothing, or miss and write slot PixHash(p). -/
theorem State.probe_cases (s : State) (p : Pixel) :
    ((s.cacheRead (pixHash p)).holds p = true ∧ s.probe p = (true, s)) ∨
    ((s.cacheRead (pixHash p)).holds p = false ∧ s.probe p = (false, s.insert p)) := by
  cases h : (s.cacheRead (pixHash p)).holds p <;> simp [State.probe, State.insert, h]

theorem State.probe_hit {s : State} {p : Pixel} (h : (s.cacheRead (pixHash p)).holds p = true) :
    s.probe p = (true, s) := by
  simp [State.probe, h]

theorem State.probe_miss {s : State} {p : Pixel} (h : (s.cacheRead (pixHash p)).holds p = false) :
    s.probe p = (false, s.insert p) := by
  simp [State.probe, State.insert, h]

/-- After a Probe slot PixHash(p) holds p, and every other slot is as before, hit or miss. -/
theorem State.cacheRead_probe (s : State) (p : Pixel) (slot : SlotIdx) :
    (s.probe p).2.cacheRead slot = if slot = pixHash p then ⟨true, p⟩ else s.cacheRead slot := by
  obtain ⟨hh, h⟩ | ⟨-, h⟩ := s.probe_cases p
  · rw [h]
    split
    · next e =>
      subst e
      obtain ⟨hv, hp⟩ := (CacheEntry.holds_iff _ _).1 hh
      cases he : s.cacheRead (pixHash p)
      simp_all
    · rfl
  · rw [h]
    exact s.cacheRead_insert p slot

@[simp] theorem State.probe_prev (s : State) (p : Pixel) : (s.probe p).2.prev = s.prev := by
  unfold State.probe
  split <;> rfl

@[simp] theorem State.probe_run (s : State) (p : Pixel) : (s.probe p).2.run = s.run := by
  unfold State.probe
  split <;> rfl

@[simp] theorem State.probe_mode (s : State) (p : Pixel) : (s.probe p).2.mode = s.mode := by
  unfold State.probe
  split <;> rfl

@[simp] theorem State.probe_err (s : State) (p : Pixel) : (s.probe p).2.err = s.err := by
  unfold State.probe
  split <;> rfl

@[simp] theorem State.probe_pending (s : State) (p : Pixel) : (s.probe p).2.pending = s.pending := by
  unfold State.probe
  split <;> rfl

/-! ### The gate (R215) -/

theorem State.faulted_iff (s : State) : s.faulted = true ↔ s.err.code ≠ .noError := by
  simp [State.faulted]

theorem State.not_faulted_iff (s : State) : s.faulted = false ↔ s.err.code = .noError := by
  simp [State.faulted]

/-- A legal command in a mode it is accepted in runs its rule when the block is not faulted. -/
theorem gate_runs {op : BitVec 5} {body : State → State} {s : State} (hf : s.err.code = .noError)
    (hm : ∀ m, requiredMode op = some m → s.mode = m) : gate op true body s = body s := by
  have h := (s.not_faulted_iff).2 hf
  cases hr : requiredMode op with
  | none => simp [gate, h, hr]
  | some m => simp [gate, h, hr, hm m hr]

/-- A command in the wrong mode raises ModeError. -/
theorem gate_wrongMode {op : BitVec 5} {body : State → State} {s : State} {m : Mode} (hf : s.err.code = .noError)
    (hr : requiredMode op = some m) (hm : s.mode ≠ m) :
    gate op true body s = s.raise .modeError (op.setWidth 8) := by
  simp [gate, (s.not_faulted_iff).2 hf, hr, hm]

/-- An illegal command raises IllegalCommand. -/
theorem gate_illegal {op : BitVec 5} {body : State → State} {s : State} (hf : s.err.code = .noError) :
    gate op false body s = s.raise .illegalCommand (op.setWidth 8) := by
  simp [gate, (s.not_faulted_iff).2 hf]

/-- A faulted block refuses every command but three. -/
theorem gate_refused {op : BitVec 5} {legal : Bool} {body : State → State} {s : State}
    (hf : s.err.code ≠ .noError) (hop : runsWhileFaulted op legal = false) : gate op legal body s = s.refuse := by
  simp [gate, (s.faulted_iff).2 hf, hop]

/-- STATE_READ, CACHE_READ and a legal START run while the block is faulted. -/
theorem gate_runs_faulted {op : BitVec 5} {legal : Bool} {body : State → State} {s : State}
    (hf : s.err.code ≠ .noError) (hop : runsWhileFaulted op legal = true) : gate op legal body s = body s := by
  simp [gate, (s.faulted_iff).2 hf, hop]

/-- Everything the gate can do: refuse, raise IllegalCommand, raise ModeError, or run the command's rule. -/
theorem gate_cases (op : BitVec 5) (legal : Bool) (body : State → State) (s : State) :
    (s.err.code ≠ .noError ∧ runsWhileFaulted op legal = false ∧ gate op legal body s = s.refuse) ∨
    (s.err.code ≠ .noError ∧ runsWhileFaulted op legal = true ∧ gate op legal body s = body s) ∨
    (s.err.code = .noError ∧ legal = false ∧ gate op legal body s = s.raise .illegalCommand (op.setWidth 8)) ∨
    (s.err.code = .noError ∧ legal = true ∧ (∃ m, requiredMode op = some m ∧ s.mode ≠ m) ∧
      gate op legal body s = s.raise .modeError (op.setWidth 8)) ∨
    (s.err.code = .noError ∧ legal = true ∧ (∀ m, requiredMode op = some m → s.mode = m) ∧
      gate op legal body s = body s) := by
  by_cases hf : s.err.code = .noError
  · cases legal
    · exact .inr (.inr (.inl ⟨hf, rfl, gate_illegal hf⟩))
    · by_cases hm : ∀ m, requiredMode op = some m → s.mode = m
      · exact .inr (.inr (.inr (.inr ⟨hf, rfl, hm, gate_runs hf hm⟩)))
      · push Not at hm
        obtain ⟨m, hr, hne⟩ := hm
        exact .inr (.inr (.inr (.inl ⟨hf, rfl, ⟨m, hr, hne⟩, gate_wrongMode hf hr hne⟩)))
  · cases hop : runsWhileFaulted op legal
    · exact .inl ⟨hf, rfl, gate_refused hf hop⟩
    · exact .inr (.inl ⟨hf, rfl, gate_runs_faulted hf hop⟩)

/-! ### Responses (R75) -/

/-- What emitting up to five bytes gives: nout counts them, and they are the response's bytes in order. -/
theorem Response.emitAll_bytes (bytes : List Byte) (h : bytes.length ≤ 5) :
    (Response.zero.emitAll bytes).bytes = bytes ∧
      (Response.zero.emitAll bytes).nout = BitVec.ofNat 3 bytes.length := by
  match bytes, h with
  | [], _ => exact ⟨rfl, rfl⟩
  | [_], _ => exact ⟨rfl, rfl⟩
  | [_, _], _ => exact ⟨rfl, rfl⟩
  | [_, _, _], _ => exact ⟨rfl, rfl⟩
  | [_, _, _, _], _ => exact ⟨rfl, rfl⟩
  | [_, _, _, _, _], _ => exact ⟨rfl, rfl⟩
  | _ :: _ :: _ :: _ :: _ :: _ :: _, h => simp at h; omega

/-- Emitting bytes writes nout and out only. -/
theorem Response.emitAll_words (bytes : List Byte) (r : Response) :
    (r.emitAll bytes).err = r.err ∧ (r.emitAll bytes).info = r.info ∧ (r.emitAll bytes).r0 = r.r0 ∧
      (r.emitAll bytes).r1 = r.r1 := by
  induction bytes generalizing r with
  | nil => simp [Response.emitAll]
  | cons b bs ih => simpa [Response.emitAll, Response.emit] using ih (r.emit b)

/-! ### The requests a step takes -/

theorem step_empty {s : State} (h : s.pending = []) : step s = .next s := by
  simp [step, State.fetch, h, State.hold]

/-- A step takes the first request and runs the instruction it decodes to. -/
theorem step_decoded {s : State} {r : HostRequest} {rest : List HostRequest} {i : Instr}
    (h : s.pending = r :: rest) (hd : decode r = .ok i) : step s = exec i { s with pending := rest } := by
  simp [step, State.fetch, h, hd]

theorem step_rejected {s : State} {r : HostRequest} {rest : List HostRequest} {e : DecodeReject}
    (h : s.pending = r :: rest) (hd : decode r = .error e) :
    step s = .next (State.takeRejected { s with pending := rest } e) := by
  simp [step, State.fetch, h, hd]

end Sys2Proof.Machine
end

