-- ==== Sys2Proof/Laws/Codec.lean ====
section
/-! SUPPORT. Spec lemmas of the codec: what reconstruction, packing, unpacking and the encoder's choice do. -/

namespace Sys2Proof.Machine

/-! ### Ranges and reconstruction -/

theorem inRange_iff (lo hi x : Int) : inRange lo hi x = true ↔ lo ≤ x ∧ x ≤ hi := by
  simp [inRange]

theorem diffSmallFits_iff (dr dg db : Int) : diffSmallFits dr dg db = true ↔
    (-2 ≤ dr ∧ dr ≤ 1) ∧ (-2 ≤ dg ∧ dg ≤ 1) ∧ (-2 ≤ db ∧ db ≤ 1) := by
  simp [diffSmallFits, inRange_iff, and_assoc]

theorem diffMedFits_iff (dg u v : Int) : diffMedFits dg u v = true ↔
    (-32 ≤ dg ∧ dg ≤ 31) ∧ (-8 ≤ u ∧ u ≤ 7) ∧ (-8 ≤ v ∧ v ≤ 7) := by
  simp [diffMedFits, inRange_iff, and_assoc]

/-- The mask of ChannelRangeError as a number: 4 for r, 2 for g, 1 for b (R197). -/
theorem channelMask_toNat (r g b : Int) : (channelMask r g b).toNat =
    (if r < 0 ∨ 255 < r then 4 else 0) + (if g < 0 ∨ 255 < g then 2 else 0) + (if b < 0 ∨ 255 < b then 1 else 0) := by
  simp only [channelMask, bit]
  by_cases hr : r < 0 ∨ 255 < r <;> by_cases hg : g < 0 ∨ 255 < g <;> by_cases hb : b < 0 ∨ 255 < b <;>
    simp only [hr, hg, hb, decide_true, decide_false, if_true, if_false] <;> rfl

/-- The mask is 0 exactly when no channel leaves [0,255]. -/
theorem channelMask_eq_zero (r g b : Int) : channelMask r g b = 0 ↔
    (0 ≤ r ∧ r ≤ 255) ∧ (0 ≤ g ∧ g ≤ 255) ∧ (0 ≤ b ∧ b ≤ 255) := by
  rw [BitVec.toNat_eq, channelMask_toNat]
  split <;> split <;> split <;> simp <;> omega

/-- An integer in [0,255] is the number of its byte. -/
theorem byte_ofInt_toNat {x : Int} (h0 : 0 ≤ x) (h1 : x ≤ 255) : ((BitVec.ofInt 8 x).toNat : Int) = x := by
  simp only [BitVec.toNat_ofInt]
  omega

/-- A reconstruction inside [0,255] is the pixel with those channels (R195, R196). -/
theorem reconstruct_ok {prev : Pixel} {dr dg db : Int}
    (hr : 0 ≤ (prev.r.toNat : Int) + dr ∧ (prev.r.toNat : Int) + dr ≤ 255)
    (hg : 0 ≤ (prev.g.toNat : Int) + dg ∧ (prev.g.toNat : Int) + dg ≤ 255)
    (hb : 0 ≤ (prev.b.toNat : Int) + db ∧ (prev.b.toNat : Int) + db ≤ 255) :
    ∃ q, reconstruct prev dr dg db = .ok q ∧ (q.r.toNat : Int) = prev.r.toNat + dr ∧
      (q.g.toNat : Int) = prev.g.toNat + dg ∧ (q.b.toNat : Int) = prev.b.toNat + db := by
  have h := (channelMask_eq_zero _ _ _).2 ⟨hr, hg, hb⟩
  refine ⟨⟨BitVec.ofInt 8 (prev.r.toNat + dr), BitVec.ofInt 8 (prev.g.toNat + dg),
    BitVec.ofInt 8 (prev.b.toNat + db)⟩, by simp only [reconstruct, h, if_true], ?_, ?_, ?_⟩
  · exact byte_ofInt_toNat hr.1 hr.2
  · exact byte_ofInt_toNat hg.1 hg.2
  · exact byte_ofInt_toNat hb.1 hb.2

/-- A reconstruction with a channel outside [0,255] is the mask of those channels (R197). -/
theorem reconstruct_error {prev : Pixel} {dr dg db : Int}
    (h : ¬ ((0 ≤ (prev.r.toNat : Int) + dr ∧ (prev.r.toNat : Int) + dr ≤ 255) ∧
      (0 ≤ (prev.g.toNat : Int) + dg ∧ (prev.g.toNat : Int) + dg ≤ 255) ∧
      (0 ≤ (prev.b.toNat : Int) + db ∧ (prev.b.toNat : Int) + db ≤ 255))) :
    reconstruct prev dr dg db =
      .error (channelMask (prev.r.toNat + dr) (prev.g.toNat + dg) (prev.b.toNat + db)) := by
  have hm := mt (channelMask_eq_zero _ _ _).1 h
  simp only [reconstruct, hm, if_false]

/-- Adding the difference of p and q to q gives p back (R103, R195). -/
theorem reconstruct_delta (p q : Pixel) :
    reconstruct q (pixelDelta p q).1 (pixelDelta p q).2.1 (pixelDelta p q).2.2 = .ok p := by
  have hr := p.r.isLt
  have hg := p.g.isLt
  have hb := p.b.isLt
  obtain ⟨x, hx, h1, h2, h3⟩ := reconstruct_ok (prev := q) (dr := (pixelDelta p q).1) (dg := (pixelDelta p q).2.1)
    (db := (pixelDelta p q).2.2) (by simp only [pixelDelta]; omega) (by simp only [pixelDelta]; omega)
    (by simp only [pixelDelta]; omega)
  rw [hx]
  simp only [pixelDelta] at h1 h2 h3
  cases x
  cases p
  simp only [Except.ok.injEq, Pixel.mk.injEq, BitVec.toNat_eq]
  dsimp only at *
  omega

/-! ### Biased fields (R71) -/

/-- A stored field, unbiased and biased again, is itself. -/
theorem biased_unbias (bias : Int) {n : Nat} (v : BitVec n) : biased bias n (unbias bias v) = v := by
  simp [biased, unbias]

/-- A value whose biased form fits the field is read back from it. -/
theorem unbias_biased (bias : Int) (n : Nat) (x : Int) (h0 : 0 ≤ x + bias) (h1 : x + bias < 2 ^ n) :
    unbias bias (biased bias n x) = x := by
  simp only [biased, unbias, BitVec.toNat_ofInt]
  have h : (x + bias) % ((2 ^ n : Nat) : Int) = x + bias :=
    Int.emod_eq_of_lt h0 (by simpa using h1)
  rw [h]
  omega

/-! ### The PACK commands (R136) -/

theorem packOrRaise_fits {op : BitVec 5} {fits : Bool} {c : Chunk} {t : State} (h : fits = true) :
    packOrRaise op fits c t = t.respondBytes c.pack 0 := by
  simp [packOrRaise, h]

theorem packOrRaise_raises {op : BitVec 5} {fits : Bool} {c : Chunk} {t : State} (h : fits = false) :
    packOrRaise op fits c t = t.raise .rangeError (op.setWidth 8) := by
  simp [packOrRaise, h]

/-! ### The encoder's choice (R177 to R179) -/

/-- What steps 3 to 5 can choose: DIFF_SMALL or DIFF_MED with fields in range, or RGB when neither fits. -/
theorem chooseDelta_cases (p q : Pixel) :
    (diffSmallFits (pixelDelta p q).1 (pixelDelta p q).2.1 (pixelDelta p q).2.2 = true ∧
      chooseDelta p q = .diffSmall (pixelDelta p q).1 (pixelDelta p q).2.1 (pixelDelta p q).2.2) ∨
    (diffSmallFits (pixelDelta p q).1 (pixelDelta p q).2.1 (pixelDelta p q).2.2 = false ∧
      diffMedFits (pixelDelta p q).2.1 ((pixelDelta p q).1 - (pixelDelta p q).2.1)
        ((pixelDelta p q).2.2 - (pixelDelta p q).2.1) = true ∧
      chooseDelta p q = .diffMed (pixelDelta p q).2.1 ((pixelDelta p q).1 - (pixelDelta p q).2.1)
        ((pixelDelta p q).2.2 - (pixelDelta p q).2.1)) ∨
    (diffSmallFits (pixelDelta p q).1 (pixelDelta p q).2.1 (pixelDelta p q).2.2 = false ∧
      diffMedFits (pixelDelta p q).2.1 ((pixelDelta p q).1 - (pixelDelta p q).2.1)
        ((pixelDelta p q).2.2 - (pixelDelta p q).2.1) = false ∧ chooseDelta p q = .rgb p) := by
  cases h1 : diffSmallFits (pixelDelta p q).1 (pixelDelta p q).2.1 (pixelDelta p q).2.2 with
  | true => exact .inl ⟨rfl, by simp [chooseDelta, h1]⟩
  | false =>
    cases h2 : diffMedFits (pixelDelta p q).2.1 ((pixelDelta p q).1 - (pixelDelta p q).2.1)
        ((pixelDelta p q).2.2 - (pixelDelta p q).2.1) with
    | true => exact .inr (.inl ⟨rfl, rfl, by simp [chooseDelta, h1, h2]⟩)
    | false => exact .inr (.inr ⟨rfl, rfl, by simp [chooseDelta, h1, h2]⟩)

end Sys2Proof.Machine
end

