-- ==== Sys2Proof/Laws/Exec.lean ====
section
/-! SUPPORT. What `exec` can do, said once: every instruction is a rule of its own behind the command gate
(spec/46_control.md R215). Statements over all instructions split on the gate first, then on the rule. -/

namespace Sys2Proof.Machine

/-- The op an instruction is gated by; a chunk is consumed by DEC_CHUNK. -/
def opOf : Instr → BitVec 5
  | .start _ => Op.start
  | .stateRead => Op.stateRead
  | .cacheRead _ => Op.cacheRead
  | .cacheClear => Op.cacheClear
  | .cacheProbe _ => Op.cacheProbe
  | .cacheInsert _ => Op.cacheInsert
  | .pixEq _ _ => Op.pixEq
  | .pixHash _ => Op.pixHash
  | .pixDelta _ _ => Op.pixDelta
  | .packRun _ => Op.packRun
  | .packIndex _ => Op.packIndex
  | .packDiffSmall _ _ _ => Op.packDiffSmall
  | .packDiffMed _ _ _ => Op.packDiffMed
  | .packRgb _ => Op.packRgb
  | .unpack _ _ _ _ _ => Op.unpack
  | .encPixel _ => Op.encPixel
  | .encFlush => Op.encFlush
  | .decChunk _ _ _ _ _ => Op.decChunk
  | .rgb _ => Op.decChunk
  | .index _ => Op.decChunk
  | .diffSmall _ _ _ => Op.decChunk
  | .diffMed _ _ _ => Op.decChunk
  | .run _ => Op.decChunk

/-- Only START with mode 3 is an illegal instruction (R212). -/
def legalOf : Instr → Bool
  | .start m => (modeOf m).isSome
  | _ => true

/-- UNPACK's rule after the gate. -/
def unpackRule (s0 s1 s2 s3 : Byte) (avail : BitVec 3) (t : State) : State :=
  match unpackChunk s0 s1 s2 s3 (availOf avail) with
  | .error info => t.raise .unknownTag info
  | .ok c => t.respondWords (unpackR0 c) (unpackR1 c)

/-- DEC_CHUNK's rule after the gate. -/
def decChunkRule (s0 s1 s2 s3 : Byte) (avail : BitVec 3) (t : State) : State :=
  match unpackChunk s0 s1 s2 s3 (availOf avail) with
  | .error info => t.raise .unknownTag info
  | .ok c => decodeStep c t

/-- The rule of an instruction, after the gate. -/
def ruleOf : Instr → State → State
  | .start m => fun t =>
      match modeOf m with
      | some mode => (t.startImage mode).respondWords 0 0
      | none => t
  | .stateRead => fun t => t.respondWords (stateReadR0 t) (stateReadR1 t)
  | .cacheRead slot => fun t => t.respondWords (cacheReadR0 (t.cacheRead slot)) 0
  | .cacheClear => fun t => t.cacheClear.respondWords 0 0
  | .cacheProbe p => fun t => (t.probe p).2.respondWords (place 0 (pixHash p) ||| place 6 (bit (t.probe p).1)) 0
  | .cacheInsert p => fun t => (t.insert p).respondWords (place 0 (pixHash p)) 0
  | .pixEq p q => fun t => t.respondWords (place 0 (bit (pixelsEqual p q))) 0
  | .pixHash p => fun t => t.respondWords (place 0 (pixHash p)) 0
  | .pixDelta p q => fun t =>
      t.respondWords (deltaResult (pixelDelta p q).1 (pixelDelta p q).2.1 (pixelDelta p q).2.2) 0
  | .packRun n => packOrRaise Op.packRun (Chunk.run (zext n)).packable (.run (zext n))
  | .packIndex slot => packOrRaise Op.packIndex (decide (zext slot ≤ 63)) (.index (slot.setWidth 6))
  | .packDiffSmall dr dg db =>
      packOrRaise Op.packDiffSmall (diffSmallFits (sext9 dr) (sext9 dg) (sext9 db))
        (.diffSmall (sext9 dr) (sext9 dg) (sext9 db))
  | .packDiffMed dg u v =>
      packOrRaise Op.packDiffMed (diffMedFits (sext9 dg) (sext9 u) (sext9 v)) (.diffMed (sext9 dg) (sext9 u) (sext9 v))
  | .packRgb p => packOrRaise Op.packRgb true (.rgb p)
  | .unpack s0 s1 s2 s3 avail => unpackRule s0 s1 s2 s3 avail
  | .encPixel p => encodePixel p
  | .encFlush => fun t => { t with run := 0 }.respondBytes (closeRun t.run) 0
  | .decChunk s0 s1 s2 s3 avail => decChunkRule s0 s1 s2 s3 avail
  | .rgb p => decodeStep (.rgb p)
  | .index slot => decodeStep (.index slot)
  | .diffSmall rr gg bb => decodeStep (diffSmallFields rr gg bb)
  | .diffMed gggggg uuuu vvvv => decodeStep (diffMedFields gggggg uuuu vvvv)
  | .run nnnnnn => decodeStep (runFields nnnnnn)

/-- `exec` is the gate before the rule, for every instruction. -/
theorem exec_gate (i : Instr) (s : State) : exec i s = .next (gate (opOf i) (legalOf i) (ruleOf i) s) := by
  cases i with
  | start m =>
    simp only [exec, execStart, runCommand, opOf, legalOf, ruleOf]
    cases h : modeOf m with
    | some mode => rfl
    | none =>
      by_cases hf : s.err.code = .noError
      · simp [gate_illegal hf]
      · simp [gate, (s.faulted_iff).2 hf, runsWhileFaulted]
  | _ => rfl

/-- Every instruction answers a next state. -/
theorem exec_next (i : Instr) (s : State) : ∃ t, exec i s = .next t := ⟨_, exec_gate i s⟩

/-- What an instruction answers, as the state of `exec_gate`. -/
theorem exec_next_iff {i : Instr} {s t : State} :
    exec i s = .next t ↔ gate (opOf i) (legalOf i) (ruleOf i) s = t := by
  rw [exec_gate]
  simp

/-- A legal instruction in a mode it is accepted in runs its rule. -/
theorem exec_ready {i : Instr} {s : State} (hf : s.err.code = .noError) (hl : legalOf i = true)
    (hm : ∀ m, requiredMode (opOf i) = some m → s.mode = m) : exec i s = .next (ruleOf i s) := by
  rw [exec_gate, hl, gate_runs hf hm]

/-- Everything an instruction can do. -/
theorem exec_cases {i : Instr} {s t : State} (h : exec i s = .next t) :
    (s.err.code ≠ .noError ∧ runsWhileFaulted (opOf i) (legalOf i) = false ∧ t = s.refuse) ∨
    (s.err.code ≠ .noError ∧ runsWhileFaulted (opOf i) (legalOf i) = true ∧ t = ruleOf i s) ∨
    (s.err.code = .noError ∧ legalOf i = false ∧ t = s.raise .illegalCommand ((opOf i).setWidth 8)) ∨
    (s.err.code = .noError ∧ legalOf i = true ∧ (∃ m, requiredMode (opOf i) = some m ∧ s.mode ≠ m) ∧
      t = s.raise .modeError ((opOf i).setWidth 8)) ∨
    (s.err.code = .noError ∧ legalOf i = true ∧ (∀ m, requiredMode (opOf i) = some m → s.mode = m) ∧
      t = ruleOf i s) := by
  rw [exec_next_iff] at h
  subst h
  exact gate_cases (opOf i) (legalOf i) (ruleOf i) s

end Sys2Proof.Machine
end

