-- ==== Sys2Proof/Laws/Chunks.lean ====
section
/-! SUPPORT. What each byte of a chunk reads as in numbers, what the two readers of chunks do by the first byte,
and what the encoder and decoder steps leave alone. Later proofs cite these instead of unfolding the readers. -/

namespace Sys2Proof

/-! ### Bytes and their fields in numbers (R43, R60 to R65) -/

theorem fieldAt_toNat (w : Word) (lo n : Nat) : (fieldAt w lo n).toNat = w.toNat / 2 ^ lo % 2 ^ n := by
  simp [fieldAt, BitVec.extractLsb'_toNat, Nat.shiftRight_eq_div_pow]

theorem tagOf_toNat (b : Byte) : (tagOf b).toNat = b.toNat / 64 := by
  revert b
  decide

theorem low6_toNat (b : Byte) : (low6 b).toNat = b.toNat % 64 := by
  revert b
  decide

theorem tagOf_eq_iff (b : Byte) (k : BitVec 2) : tagOf b = k ↔ b.toNat / 64 = k.toNat := by
  rw [BitVec.toNat_eq, tagOf_toNat]

theorem rgbTag_iff (b : Byte) : b = Config.rgbTag ↔ b.toNat = 0xFE := by
  rw [BitVec.toNat_eq]
  rfl

theorem dsFields_toNat (b : Byte) : (dsFields b).1.toNat = b.toNat / 16 % 4 ∧
    (dsFields b).2.1.toNat = b.toNat / 4 % 4 ∧ (dsFields b).2.2.toNat = b.toNat % 4 := by
  revert b
  decide

theorem high_nibble_toNat (b : Byte) : (b.extractLsb' 4 4).toNat = b.toNat / 16 := by
  revert b
  decide

theorem low_nibble_toNat (b : Byte) : (b.extractLsb' 0 4).toNat = b.toNat % 16 := by
  revert b
  decide

theorem runByte_toNat (v : BitVec 6) : (runByte v).toNat = 0xC0 + v.toNat := by
  revert v
  decide

theorem indexByte_toNat (v : SlotIdx) : (indexByte v).toNat = v.toNat := by
  revert v
  decide

theorem dsByte_toNat (rr gg bb : BitVec 2) :
    (dsByte rr gg bb).toNat = 0x40 + 16 * rr.toNat + 4 * gg.toNat + bb.toNat := by
  revert rr gg bb
  decide

theorem dmByte_toNat (v : BitVec 6) : (2#2 ++ v : BitVec 8).toNat = 0x80 + v.toNat := by
  revert v
  decide

theorem nibbles_toNat (u v : BitVec 4) : (u ++ v : BitVec 8).toNat = 16 * u.toNat + v.toNat := by
  revert u v
  decide

theorem pixel_bits_toNat (p : Pixel) : p.bits.toNat = 65536 * p.r.toNat + 256 * p.g.toNat + p.b.toNat := by
  have := p.r.isLt
  have := p.g.isLt
  have := p.b.isLt
  simp only [Pixel.bits, BitVec.toNat_append]
  rw [← Nat.shiftLeft_add_eq_or_of_lt (by omega), ← Nat.shiftLeft_add_eq_or_of_lt (by omega)]
  simp only [Nat.shiftLeft_eq]
  omega

namespace Machine

/-! ### Result words in numbers (R76) -/

/-- A value placed at `lo` counts 2^lo times. -/
theorem place_toNat {n : Nat} (lo : Nat) (v : BitVec n) (h : lo + n ≤ 32) : (place lo v).toNat = v.toNat * 2 ^ lo := by
  have hv : v.toNat * 2 ^ lo < 2 ^ 32 := calc
    v.toNat * 2 ^ lo < 2 ^ n * 2 ^ lo := Nat.mul_lt_mul_of_pos_right v.isLt (by positivity)
    _ = 2 ^ (lo + n) := by rw [← pow_add, add_comm]
    _ ≤ 2 ^ 32 := Nat.pow_le_pow_right (by decide) h
  have hw : v.toNat < 2 ^ 32 := lt_of_le_of_lt (Nat.le_mul_of_pos_right _ (by positivity)) hv
  simp only [place, BitVec.toNat_shiftLeft, BitVec.toNat_setWidth, Nat.mod_eq_of_lt hw, Nat.shiftLeft_eq,
    Nat.mod_eq_of_lt hv]

/-- Two words whose bits do not meet add up. -/
theorem or_toNat (v w : Word) (k : Nat) (hv : v.toNat < 2 ^ k) (hw : 2 ^ k ∣ w.toNat) :
    (v ||| w).toNat = v.toNat + w.toNat := by
  obtain ⟨c, hc⟩ := hw
  rw [BitVec.toNat_or, hc, Nat.or_comm, ← Nat.two_pow_add_eq_or_of_lt hv, add_comm]

/-! ### Unpack by the first byte (R150, R151) -/

theorem unpackChunk_none (s0 s1 s2 s3 : Byte) : unpackChunk s0 s1 s2 s3 0 = .error 0 := by
  simp [unpackChunk]

theorem unpackChunk_index {s0 : Byte} (s1 s2 s3 : Byte) {n : Nat} (hn : 1 ≤ n) (h : s0.toNat ≤ 0x3F) :
    unpackChunk s0 s1 s2 s3 n = .ok (.index (low6 s0)) := by
  have h0 : n ≠ 0 := by omega
  have h1 := mt (rgbTag_iff s0).1 (by omega)
  have h2 := (tagOf_eq_iff s0 0).2 (by simp; omega)
  have h3 : ¬ n < Kind.index.length := by simp [Kind.length]; omega
  simp only [unpackChunk, h0, h1, h2, h3, if_true, if_false]
  rw [if_neg (by decide)]

theorem unpackChunk_diffSmall {s0 : Byte} (s1 s2 s3 : Byte) {n : Nat} (hn : 1 ≤ n) (h : 0x40 ≤ s0.toNat)
    (h' : s0.toNat ≤ 0x7F) : unpackChunk s0 s1 s2 s3 n =
      .ok (diffSmallFields (dsFields s0).1 (dsFields s0).2.1 (dsFields s0).2.2) := by
  have h0 : n ≠ 0 := by omega
  have h1 := mt (rgbTag_iff s0).1 (by omega)
  have h2 := (tagOf_eq_iff s0 1).2 (by simp; omega)
  have h3 : ¬ n < Kind.diffSmall.length := by simp [Kind.length]; omega
  simp only [unpackChunk, h0, h1, h2, h3, if_true, if_false]
  rw [if_neg (by decide), if_neg (by decide)]

theorem unpackChunk_diffMed {s0 : Byte} (s1 s2 s3 : Byte) {n : Nat} (hn : 1 ≤ n) (h : 0x80 ≤ s0.toNat)
    (h' : s0.toNat ≤ 0xBF) : unpackChunk s0 s1 s2 s3 n =
      if n < 2 then .error (BitVec.ofNat 8 n)
      else .ok (diffMedFields (low6 s0) (s1.extractLsb' 4 4) (s1.extractLsb' 0 4)) := by
  have h0 : n ≠ 0 := by omega
  have h1 := mt (rgbTag_iff s0).1 (by omega)
  have h2 := (tagOf_eq_iff s0 2).2 (by simp; omega)
  simp only [unpackChunk, h0, h1, h2, if_false]
  rw [if_neg (by decide), if_neg (by decide), if_neg (by decide)]
  rfl

theorem unpackChunk_run {s0 : Byte} (s1 s2 s3 : Byte) {n : Nat} (hn : 1 ≤ n) (h : 0xC0 ≤ s0.toNat)
    (h' : s0.toNat ≠ 0xFE) : unpackChunk s0 s1 s2 s3 n = .ok (.run (s0.toNat - 0xC0 + 1)) := by
  have hlt := s0.isLt
  have h0 : n ≠ 0 := by omega
  have h1 := mt (rgbTag_iff s0).1 h'
  have h2 := (tagOf_eq_iff s0 3).2 (by simp; omega)
  have h3 : ¬ n < Kind.run.length := by simp [Kind.length]; omega
  simp only [unpackChunk, h0, h1, h2, h3, if_true, if_false]
  simp only [runFields, zext, low6_toNat, Config.runBias]
  rw [show s0.toNat % 64 + 1 = s0.toNat - 192 + 1 by omega]

theorem unpackChunk_rgb {s0 : Byte} (s1 s2 s3 : Byte) {n : Nat} (hn : 1 ≤ n) (h : s0.toNat = 0xFE) :
    unpackChunk s0 s1 s2 s3 n = if n < 4 then .error (BitVec.ofNat 8 n) else .ok (.rgb ⟨s1, s2, s3⟩) := by
  have h0 : n ≠ 0 := by omega
  simp only [unpackChunk, h0, (rgbTag_iff s0).2 h, if_true, if_false]
  rfl

/-- The length of what a packing function writes is the length Unpack gives the chunk (R60, R200). -/
theorem Chunk.pack_length (c : Chunk) : c.pack.length = c.kind.length := by
  cases c <;> simp [Chunk.pack, Chunk.kind, Kind.length, dmBytes, rgbBytes]

/-! ### What the two steps leave alone -/

/-- A delta chunk writes PREV, the cache, ERR and the response at most. -/
theorem decodeDelta_frame (k : Kind) (dr dg db : Int) (s : State) : (decodeDelta k dr dg db s).run = s.run ∧
    (decodeDelta k dr dg db s).mode = s.mode ∧ (decodeDelta k dr dg db s).pending = s.pending := by
  unfold decodeDelta
  split <;> exact ⟨rfl, rfl, rfl⟩

/-- A decoder step writes PREV, the cache, ERR and the response at most (R20). -/
theorem decodeStep_frame (c : Chunk) (s : State) : (decodeStep c s).run = s.run ∧
    (decodeStep c s).mode = s.mode ∧ (decodeStep c s).pending = s.pending := by
  cases c with
  | index slot =>
    simp only [decodeStep]
    split <;> exact ⟨rfl, rfl, rfl⟩
  | diffSmall dr dg db => exact decodeDelta_frame _ _ _ _ s
  | diffMed dg u v => exact decodeDelta_frame _ _ _ _ s
  | run n => exact ⟨rfl, rfl, rfl⟩
  | rgb p => exact ⟨rfl, rfl, rfl⟩

/-- An encoder step writes PREV, RUN, the cache and the response only (R20, R137). -/
theorem encodePixel_frame (p : Pixel) (s : State) : (encodePixel p s).mode = s.mode ∧
    (encodePixel p s).err = s.err ∧ (encodePixel p s).pending = s.pending := by
  simp only [encodePixel, encodeRepeat]
  split
  · split <;> exact ⟨rfl, rfl, rfl⟩
  · exact ⟨s.probe_mode p, s.probe_err p, s.probe_pending p⟩

end Machine

end Sys2Proof
end

