-- ==== Sys2Proof/Laws/PerInstr.lean ====
section
/-! SUPPORT. Statements about every instruction as syntax, one lemma per constructor. The family RoundTrip: the
decoder reads a well-formed instruction back from what the encoder writes. -/

namespace Sys2Proof.Laws.RoundTrip

/-- Decoding what the encoder writes for `i` gives `i` back. -/
def Statement (i : Instr) : Prop := i.wellFormed = true → decode (encode i) = .ok i

theorem start (m : BitVec 2) : Statement (.start m) := by
  intro h
  have hm : m ≠ 3#2 := by simpa [Instr.wellFormed] using h
  simp [encode, decode, decodeCommand, hm]

theorem stateRead : Statement .stateRead := fun _ => rfl

theorem cacheRead (slot : SlotIdx) : Statement (.cacheRead slot) := by
  intro _
  simp [encode, decode, decodeCommand]

theorem cacheClear : Statement .cacheClear := fun _ => rfl

theorem cacheProbe (p : Pixel) : Statement (.cacheProbe p) := by
  intro _
  simp [encode, decode, decodeCommand]

theorem cacheInsert (p : Pixel) : Statement (.cacheInsert p) := by
  intro _
  simp [encode, decode, decodeCommand]

theorem pixEq (p q : Pixel) : Statement (.pixEq p q) := by
  intro _
  simp [encode, decode, decodeCommand]

theorem pixHash (p : Pixel) : Statement (.pixHash p) := by
  intro _
  simp [encode, decode, decodeCommand]

theorem pixDelta (p q : Pixel) : Statement (.pixDelta p q) := by
  intro _
  simp [encode, decode, decodeCommand]

theorem packRun (n : BitVec 8) : Statement (.packRun n) := by
  intro _
  simp [encode, decode, decodeCommand]

theorem packIndex (slot : BitVec 8) : Statement (.packIndex slot) := by
  intro _
  simp [encode, decode, decodeCommand]

theorem packDiffSmall (dr dg db : BitVec 9) : Statement (.packDiffSmall dr dg db) := by
  intro _
  simp [encode, decode, decodeCommand]

theorem packDiffMed (dg u v : BitVec 9) : Statement (.packDiffMed dg u v) := by
  intro _
  simp [encode, decode, decodeCommand]

theorem packRgb (p : Pixel) : Statement (.packRgb p) := by
  intro _
  simp [encode, decode, decodeCommand]

theorem unpack (s0 s1 s2 s3 : Byte) (avail : BitVec 3) : Statement (.unpack s0 s1 s2 s3 avail) := by
  intro _
  simp [encode, decode, decodeCommand]

theorem encPixel (p : Pixel) : Statement (.encPixel p) := by
  intro _
  simp [encode, decode, decodeCommand]

theorem encFlush : Statement .encFlush := fun _ => rfl

theorem decChunk (s0 s1 s2 s3 : Byte) (avail : BitVec 3) : Statement (.decChunk s0 s1 s2 s3 avail) := by
  intro _
  simp [encode, decode, decodeCommand]

theorem rgb (p : Pixel) : Statement (.rgb p) := by
  intro _
  simp [encode, decode, decodeChunk, rgbBytes]

theorem index (slot : SlotIdx) : Statement (.index slot) := by
  intro _
  have hne : indexByte slot ≠ Config.rgbTag := ne_rgbTag_of_tag (by simp)
  simp only [encode, decode, decodeChunk, if_neg hne, tagOf_indexByte, low6_indexByte]
  simp

theorem diffSmall (rr gg bb : BitVec 2) : Statement (.diffSmall rr gg bb) := by
  intro _
  have hne : dsByte rr gg bb ≠ Config.rgbTag := ne_rgbTag_of_tag (by simp)
  simp only [encode, decode, decodeChunk, if_neg hne, tagOf_dsByte, dsFields_dsByte]
  simp

theorem diffMed (gggggg : BitVec 6) (uuuu vvvv : BitVec 4) : Statement (.diffMed gggggg uuuu vvvv) := by
  intro _
  have hne : (2#2 ++ gggggg : BitVec 8) ≠ Config.rgbTag := ne_rgbTag_of_tag (by simp)
  simp only [encode, decode, dmBytes, decodeChunk, if_neg hne, tagOf_dmByte, low6_dmByte, high_nibble, low_nibble]
  simp

theorem run (nnnnnn : BitVec 6) : Statement (.run nnnnnn) := by
  intro h
  have hne : runByte nnnnnn ≠ Config.rgbTag := by
    rw [Ne, runByte_eq_rgbTag]
    simpa [Instr.wellFormed] using h
  simp only [encode, decode, decodeChunk, if_neg hne, tagOf_runByte, low6_runByte]
  simp

end Sys2Proof.Laws.RoundTrip
end

