-- ==== Sys2Proof/Tests/Slice0.lean ====
section
/-! SUPPORT. Tests: what WellFormed refuses, words written out from the spec's encodings, single steps against the
vectors of spec/95_test_vectors.md, and for each statement with hypotheses a state and operands that meet them. -/

namespace Sys2Proof.Tests

open Sys2Proof.Machine Sys2Proof.Claims

/-! ### Small states -/

/-- A fresh block in this mode. -/
def blockIn (m : Mode) : State := { State.reset with mode := m }

/-- A block in DECODE after the RGB chunk of p: PREV is p and its slot is genuine. -/
def decodedBlock (p : Pixel) : State := { (blockIn .decode).insert p with prev := p }

/-- A block in ENCODE with PREV = p, its slot genuine, and an open run. -/
def encodingBlock (p : Pixel) (run : BitVec 6) : State := { (blockIn .encode).insert p with prev := p, run := run }

/-- A block with PACK_RUN's RangeError latched. -/
def faultedBlock : State := { State.reset with err := ⟨.rangeError, 0x10⟩ }

/-- The next state of an outcome, if it is one. -/
def nextOf : Host.Outcome State Fault Refusal → Option State
  | .next t => some t
  | .fault _ => none
  | .refused _ => none

/-- The state after one step that runs this command record in `s`, if it goes on. -/
def after (s : State) (op : BitVec 5) (a b : Word) : Option State :=
  nextOf (step { s with pending := [.command ⟨op, a, b⟩] })

/-- The response to one command record, run in `s`. -/
def answer (s : State) (op : BitVec 5) (a b : Word) : Option Response :=
  match after s op a b with
  | some t => t.rsp
  | none => none

/-! ### WellFormed: each check refuses an ill-formed term, and its neighbours pass -/

theorem test_wellFormed_start : (Instr.start 3).wellFormed = false ∧ (Instr.start 2).wellFormed = true := by decide

theorem test_wellFormed_run : (Instr.run 62).wellFormed = false ∧ (Instr.run 61).wellFormed = true ∧
    (Instr.run 63).wellFormed = true := by decide

/-! ### Decoding: words written out from R60 to R68, R73 and R74 -/

theorem test_decode_start : decode (.command ⟨0b00001, 0b10, 0⟩) = .ok (.start 2) := by decide

theorem test_decode_start_reserved : decode (.command ⟨0b00001, 0b11, 0⟩) = .error .reservedStartMode := by decide

theorem test_decode_stateRead : decode (.command ⟨0b00010, 0, 0⟩) = .ok .stateRead := by decide

theorem test_decode_cacheRead : decode (.command ⟨0b00011, 0b1011000, 0⟩) = .ok (.cacheRead 24) := by decide

theorem test_decode_cacheClear : decode (.command ⟨0b00100, 0, 0⟩) = .ok .cacheClear := by decide

theorem test_decode_cacheProbe : decode (.command ⟨0b00101, 0x00010203, 0⟩) = .ok (.cacheProbe ⟨1, 2, 3⟩) := by decide

theorem test_decode_cacheInsert : decode (.command ⟨0b00110, 0x00090B0A, 0⟩) = .ok (.cacheInsert ⟨9, 11, 10⟩) := by
  decide

theorem test_decode_pixEq : decode (.command ⟨0b01000, 0xFF010203, 0x00010204⟩) =
    .ok (.pixEq ⟨1, 2, 3⟩ ⟨1, 2, 4⟩) := by decide

theorem test_decode_pixHash : decode (.command ⟨0b01001, 0x00C80A1E, 0⟩) = .ok (.pixHash ⟨200, 10, 30⟩) := by decide

theorem test_decode_pixDelta : decode (.command ⟨0b01010, 0x00090B0A, 0x000A0A0B⟩) =
    .ok (.pixDelta ⟨9, 11, 10⟩ ⟨10, 10, 11⟩) := by decide

theorem test_decode_packRun : decode (.command ⟨0b10000, 0x101, 0⟩) = .ok (.packRun 1) := by decide

theorem test_decode_packIndex : decode (.command ⟨0b10001, 0x40, 0⟩) = .ok (.packIndex 64) := by decide

theorem test_decode_packDiffSmall : decode (.command ⟨0b10010, 0b00000_111111111_000000001_000000000, 0⟩) =
    .ok (.packDiffSmall 511 1 0) := by decide

theorem test_decode_packDiffMed : decode (.command ⟨0b10011, 0b00000_111100000_111111000_000000111, 0⟩) =
    .ok (.packDiffMed 480 504 7) := by decide

theorem test_decode_packRgb : decode (.command ⟨0b10100, 0x00FEFF00, 0⟩) = .ok (.packRgb ⟨254, 255, 0⟩) := by decide

theorem test_decode_unpack : decode (.command ⟨0b11000, 0xFE010203, 0xF9⟩) = .ok (.unpack 0xFE 1 2 3 1) := by decide

theorem test_decode_encPixel : decode (.command ⟨0b11100, 0x000A0A0B, 0⟩) = .ok (.encPixel ⟨10, 10, 11⟩) := by decide

theorem test_decode_encFlush : decode (.command ⟨0b11101, 0, 0⟩) = .ok .encFlush := by decide

theorem test_decode_decChunk : decode (.command ⟨0b11110, 0xAA895D00, 7⟩) = .ok (.decChunk 0xAA 0x89 0x5D 0 7) := by
  decide

theorem test_decode_unassigned : ∀ op ∈ unassignedOps, decode (.command ⟨op, 0, 0⟩) = .error (.unassignedOp op) := by
  decide

theorem test_decode_rgb : decode (.chunk [0b11111110, 1, 2, 3, 0x5D]) = .ok (.rgb ⟨1, 2, 3⟩) := by decide

theorem test_decode_index : decode (.chunk [0b00_100010]) = .ok (.index 34) := by decide

/-- Scenario A's byte (1,3,1), and 0x72 = (3,0,2), which tells the two DS_ORDERs apart. -/
theorem test_decode_diffSmall : decode (.chunk [0b01_01_11_01]) = .ok (.diffSmall 1 3 1) ∧
    decode (.chunk [0b01_11_00_10]) = .ok (.diffSmall 3 0 2) := by decide

theorem test_decode_diffMed : decode (.chunk [0b10_101010, 0b1000_1001]) = .ok (.diffMed 42 8 9) := by decide

theorem test_decode_run : decode (.chunk [0b11_111101]) = .ok (.run 61) ∧
    decode (.chunk [0b11_111111]) = .ok (.run 63) := by decide

theorem test_decode_truncated : decode (.chunk []) = .error (.truncatedChunk 0) ∧
    decode (.chunk [0xAA]) = .error (.truncatedChunk 1) ∧
    decode (.chunk [0xFE, 1, 2]) = .error (.truncatedChunk 3) := by decide

/-! ### Words as spec/opcode_table.json numbers them -/

/-- The op of a CMD row; the first byte of a CHUNK row; a chunk's second byte in bits 15:8. -/
theorem test_tableWord : decodeTableWord 8 0x1C = some (.encPixel ⟨0, 0, 0⟩) ∧
    decodeTableWord 8 0x5D = some (.diffSmall 1 3 1) ∧ decodeTableWord 16 0x89AA = some (.diffMed 42 8 9) ∧
    decodeTableWord 32 0x030201FE = some (.rgb ⟨1, 2, 3⟩) ∧ decodeTableWord 8 0x20 = some (.index 32) := by decide

theorem test_withFetchWord : (State.reset.withFetchWord 16 0x89AA).pending = [.chunk [0xAA, 0x89, 0, 0]] ∧
    nextOf (step (State.reset.withFetchWord 8 0x02)) = nextOf (exec .stateRead State.reset) := by decide

/-! ### Single steps, from spec/95_test_vectors.md -/

/-- S2, step 4. -/
theorem test_stateRead : answer (encodingBlock ⟨10, 10, 10⟩ 1) 0x02 0 0 = some (words 0x10A0A0A 0x1) := by decide

/-- §2.3: after `PACK_RUN 0`. -/
theorem test_stateRead_faulted : answer faultedBlock 0x02 0 0 = some (words 0 0x210) := by decide

/-- §2.7. -/
theorem test_start : (after faultedBlock 0x01 0x102 0).map (fun t => (t.mode, t.err.code)) =
    some (.decode, .noError) := by decide

theorem test_start_reserved : answer State.reset 0x01 3 0 = some (errorResponse .illegalCommand 0x01) := by decide

theorem test_unassigned_op : answer State.reset 0x00 0 0 = some (errorResponse .illegalCommand 0x00) := by decide

/-- §2.2. -/
theorem test_cacheRead : answer (decodedBlock ⟨64, 0, 0⟩) 0x03 0x40 0 = some (words 0x1400000 0) ∧
    answer (decodedBlock ⟨64, 0, 0⟩) 0x03 0x3F 0 = some (words 0 0) := by decide

theorem test_cacheClear : answer ({ decodedBlock ⟨9, 11, 10⟩ with mode := .idle }.cacheClear) 0x03 0x58 0 =
    some (words 0 0) ∧ answer (blockIn .encode) 0x04 0 0 = some (errorResponse .modeError 0x04) := by decide

/-- A hit; and black does not match an empty slot. -/
theorem test_cacheProbe : answer (State.reset.insert ⟨64, 0, 0⟩) 0x05 0x400000 0 = some (words 0x40 0) ∧
    answer State.reset 0x05 0 0 = some (words 0 0) := by decide

theorem test_cacheProbe_evicts : (after (State.reset.insert ⟨64, 0, 0⟩) 0x05 0x4000 0).map (fun t => t.cacheRead 0) =
    some ⟨true, ⟨0, 64, 0⟩⟩ := by decide

theorem test_cacheInsert : answer State.reset 0x06 0x90B0A 0 = some (words 0x18 0) ∧
    (after State.reset 0x06 0x90B0A 0).map (fun t => t.cacheRead 24) = some ⟨true, ⟨9, 11, 10⟩⟩ := by decide

/-- §2.1. -/
theorem test_pixEq : answer State.reset 0x08 0xFF000000 0 = some (words 1 0) ∧
    answer State.reset 0x08 0x010203 0x010204 = some (words 0 0) := by decide

theorem test_pixHash : answer State.reset 0x09 0xFFFFFF 0 = some (words 0x31 0) ∧
    answer State.reset 0x09 0x01FF00 0 = some (words 0x3E 0) := by decide

theorem test_pixDelta : answer State.reset 0x0A 0x00FF00 0xFF0001 = some (words 0x405FFFF 0) := by decide

/-- §2.3. -/
theorem test_packRun : answer State.reset 0x10 62 0 = some (stream [0xFD] 0) ∧
    answer State.reset 0x10 63 0 = some (errorResponse .rangeError 0x10) := by decide

theorem test_packIndex : answer State.reset 0x11 63 0 = some (stream [0x3F] 0) ∧
    answer State.reset 0x11 64 0 = some (errorResponse .rangeError 0x11) := by decide

theorem test_packDiffSmall : answer State.reset 0x12 0x0007FC00 0 = some (stream [0x72] 0) ∧
    answer State.reset 0x12 0x000001FD 0 = some (errorResponse .rangeError 0x12) := by decide

theorem test_packDiffMed : answer State.reset 0x13 0x0783F1F8 0 = some (stream [0x80, 0x00] 0) ∧
    answer State.reset 0x13 0x00001000 0 = some (errorResponse .rangeError 0x13) := by decide

theorem test_packRgb : answer State.reset 0x14 0xFEFF00 0 = some (stream [0xFE, 0xFE, 0xFF, 0x00] 0) := by decide

/-- §2.4. -/
theorem test_unpack : answer State.reset 0x18 0x80000000 2 = some (words 0x12 0x783F1F8) ∧
    answer State.reset 0x18 0xFF000000 1 = some (words 0xB 0x40) := by decide

theorem test_unpack_truncated : answer State.reset 0x18 0xFE010200 3 = some (errorResponse .unknownTag 3) := by decide

/-- §2.5: a run of 2 closed before an RGB chunk, and the 62nd repeat. -/
theorem test_encPixel_closes_run : answer (encodingBlock ⟨10, 10, 10⟩ 2) 0x1C 0xC86400 0 =
    some (stream [0xC1, 0xFE, 0xC8, 0x64, 0x00] 0xC) := by decide

theorem test_encPixel_62nd : answer (encodingBlock ⟨0, 0, 0⟩ 61) 0x1C 0 0 = some (stream [0xFD] 0xB) := by decide

theorem test_encFlush : answer (encodingBlock ⟨10, 10, 10⟩ 2) 0x1D 0 0 = some (stream [0xC1] 0) := by decide

/-- §2.6. -/
theorem test_decChunk : answer (blockIn .decode) 0x1E 0xAA895D00 4 = some (words 0x52 0xA0A0B) ∧
    answer (blockIn .decode) 0x1E 0xFF000000 1 = some (words 0x100B 0) := by decide

theorem test_decChunk_range : answer { blockIn .decode with prev := ⟨255, 0, 0⟩ } 0x1E 0x80880000 2 =
    some (errorResponse .channelRange 0x03) := by decide

/-- The chunk rows, on the same vectors. -/
theorem test_rgb : nextOf (exec (.rgb ⟨255, 255, 255⟩) (blockIn .decode)) =
    some { decodedBlock ⟨255, 255, 255⟩ with rsp := some (words 0x64 0xFFFFFF) } := by decide

theorem test_index : nextOf (exec (.index 34) (decodedBlock ⟨1, 2, 3⟩)) =
    some { decodedBlock ⟨1, 2, 3⟩ with rsp := some (words 0x48 0x10203) } ∧
    nextOf (exec (.index 35) (decodedBlock ⟨1, 2, 3⟩)) = some (raised (decodedBlock ⟨1, 2, 3⟩) .cacheIntegrity 0x23) := by
  decide

theorem test_diffSmall : nextOf (exec (.diffSmall 3 3 3) { blockIn .decode with prev := ⟨0, 255, 0⟩ }) =
    some (raised { blockIn .decode with prev := ⟨0, 255, 0⟩ } .channelRange 0x02) := by decide

theorem test_diffMed : nextOf (exec (.diffMed 63 15 15) (blockIn .decode)) =
    some { decodedBlock ⟨38, 31, 38⟩ with rsp := some (words 0x52 0x261F26) } := by decide

theorem test_run : nextOf (exec (.run 61) (blockIn .decode)) =
    some { blockIn .decode with rsp := some (words 0xF8B 0) } := by decide

/-! ### Witnesses: for each statement with hypotheses, a state and operands that meet them together, one for each
clause, at the boundary values of its range -/

theorem witness_ResetLeavesIdleEmptyBlock :
    { faultedBlock with pending := [.reset, .chunk [0xC0]] }.pending = .reset :: [.chunk [0xC0]] := rfl

theorem witness_StartBeginsFreshImage : bitsOf 0xFFFFFFFF 1 0 = 3 ∧ bitsOf 0x102 1 0 ≠ 3 ∧ (2 : BitVec 2) ≠ 3 ∧
    Ready (blockIn .encode) ∧ ¬ Ready faultedBlock := by
  refine ⟨by decide, by decide, by decide, rfl, ?_⟩
  intro h
  cases h

theorem witness_ResetAndStartIdleAgree :
    { decodedBlock ⟨1, 2, 3⟩ with pending := [.reset] }.pending = .reset :: [] := rfl

theorem witness_StartForgetsThePreviousImage :
    (1 : BitVec 2) ≠ 3 ∧ (encodingBlock ⟨1, 2, 3⟩ 61).pending = faultedBlock.pending := ⟨by decide, rfl⟩

/-- The two blocks with a genuine slot keep the slot invariant. -/
theorem slotsHashed_decodedBlock : (decodedBlock ⟨1, 2, 3⟩).SlotsHashed := by
  intro slot
  revert slot
  decide

theorem witness_SlotInvariantIsKept : (2 : BitVec 2) ≠ 3 ∧ (∃ t, exec (.start 2) faultedBlock = .next t) ∧
    (decodedBlock ⟨1, 2, 3⟩).SlotsHashed ∧ (∃ t, step (decodedBlock ⟨1, 2, 3⟩) = .next t) ∧
    ((decodedBlock ⟨1, 2, 3⟩).cacheRead 34).valid = true :=
  ⟨by decide, ⟨_, rfl⟩, slotsHashed_decodedBlock, ⟨_, rfl⟩, rfl⟩

theorem witness_EveryStepKeepsInvariant : (encodingBlock ⟨1, 2, 3⟩ 61).Inv where
  slots := slotsHashed_decodedBlock
  run := by
    show (61 : BitVec 6).toNat ≤ 61
    decide
  runMode := fun h => absurd rfl h
  err := ⟨fun h => (by cases h), fun _ => rfl⟩

theorem witness_CacheClearEmptiesEverySlot : ReadyIn .idle (State.reset.insert ⟨1, 2, 3⟩) ∧ Ready (blockIn .decode) ∧
    (blockIn .decode).mode ≠ .idle := ⟨⟨rfl, rfl⟩, rfl, by decide⟩

theorem witness_CacheProbeHitsOrFills : ReadyIn .idle (State.reset.insert ⟨64, 0, 0⟩) ∧
    (State.reset.insert ⟨64, 0, 0⟩).cacheRead (slotOf ⟨64, 0, 0⟩) = ⟨true, ⟨64, 0, 0⟩⟩ ∧
    (State.reset.insert ⟨64, 0, 0⟩).cacheRead (slotOf ⟨0, 64, 0⟩) ≠ ⟨true, ⟨0, 64, 0⟩⟩ ∧
    State.reset.cacheRead (slotOf ⟨0, 0, 0⟩) ≠ ⟨true, ⟨0, 0, 0⟩⟩ ∧
    Ready (blockIn .encode) ∧ (blockIn .encode).mode ≠ .idle :=
  ⟨⟨rfl, rfl⟩, by decide, by decide, by decide, rfl, by decide⟩

theorem witness_CacheInsertWritesItsSlot : ReadyIn .idle State.reset ∧ Ready (blockIn .encode) ∧
    (blockIn .encode).mode ≠ .idle := ⟨⟨rfl, rfl⟩, rfl, by decide⟩

theorem witness_CollisionEvicts : ReadyIn .idle State.reset ∧
    slotOf ⟨255, 255, 255⟩ = slotOf ⟨63, 63, 63⟩ ∧ (⟨255, 255, 255⟩ : Pixel) ≠ ⟨63, 63, 63⟩ ∧
    ReadyIn .decode (decodedBlock ⟨63, 63, 63⟩) := ⟨⟨rfl, rfl⟩, by decide, by decide, rfl, rfl⟩

/-- The statements about PIX_EQ, PIX_HASH, PIX_DELTA, PACK_RGB and the gate's free commands ask for this alone. -/
theorem witness_Ready : Ready (encodingBlock ⟨1, 2, 3⟩ 61) ∧ Ready State.reset := ⟨rfl, rfl⟩

theorem witness_PackRunByteOrRangeError : Ready State.reset ∧
    (1 ≤ (1 : BitVec 8).toNat ∧ (1 : BitVec 8).toNat ≤ 62) ∧ (1 ≤ (62 : BitVec 8).toNat ∧ (62 : BitVec 8).toNat ≤ 62) ∧
    ((0 : BitVec 8).toNat = 0 ∨ 63 ≤ (0 : BitVec 8).toNat) ∧ ((63 : BitVec 8).toNat = 0 ∨ 63 ≤ (63 : BitVec 8).toNat) :=
  ⟨rfl, by decide, by decide, by decide, by decide⟩

theorem witness_PackIndexByteOrRangeError : Ready State.reset ∧ (63 : BitVec 8).toNat ≤ 63 ∧
    64 ≤ (64 : BitVec 8).toNat := ⟨rfl, by decide, by decide⟩

/-- The fields 510, 0x1FE, are −2; 1 is 1; 2 and 509, −3, are outside. -/
theorem witness_PackDiffSmallByteOrRangeError : Ready State.reset ∧
    (-2 ≤ signed9 (510 : BitVec 9).toNat ∧ signed9 (510 : BitVec 9).toNat ≤ 1) ∧
    (-2 ≤ signed9 (1 : BitVec 9).toNat ∧ signed9 (1 : BitVec 9).toNat ≤ 1) ∧
    ¬ (-2 ≤ signed9 (2 : BitVec 9).toNat ∧ signed9 (2 : BitVec 9).toNat ≤ 1) ∧
    ¬ (-2 ≤ signed9 (509 : BitVec 9).toNat ∧ signed9 (509 : BitVec 9).toNat ≤ 1) :=
  ⟨rfl, by decide, by decide, by decide, by decide⟩

/-- The fields 480 and 504 are −32 and −8; 31 and 7 the upper ends; 32, 479, 8 and 503 are outside. -/
theorem witness_PackDiffMedBytesOrRangeError : Ready State.reset ∧
    (-32 ≤ signed9 (480 : BitVec 9).toNat ∧ signed9 (480 : BitVec 9).toNat ≤ 31) ∧
    (-32 ≤ signed9 (31 : BitVec 9).toNat ∧ signed9 (31 : BitVec 9).toNat ≤ 31) ∧
    (-8 ≤ signed9 (504 : BitVec 9).toNat ∧ signed9 (504 : BitVec 9).toNat ≤ 7) ∧
    (-8 ≤ signed9 (7 : BitVec 9).toNat ∧ signed9 (7 : BitVec 9).toNat ≤ 7) ∧
    ¬ signed9 (32 : BitVec 9).toNat ≤ 31 ∧ ¬ -32 ≤ signed9 (479 : BitVec 9).toNat ∧
    ¬ signed9 (8 : BitVec 9).toNat ≤ 7 ∧ ¬ -8 ≤ signed9 (503 : BitVec 9).toNat := by
  refine ⟨rfl, ?_⟩
  decide

/-- The clauses of UNPACK and DEC_CHUNK over the first byte and `avail`: each range at both its ends, with the fewest
bytes its chunk takes, and one byte fewer for the chunks that can be cut short; 5, 6 and 7 mean 4. -/
theorem witness_firstByteClauses :
    ((0x00 : Byte).toNat ≤ 0x3F ∧ (0x3F : Byte).toNat ≤ 0x3F) ∧
    (0x40 ≤ (0x40 : Byte).toNat ∧ (0x7F : Byte).toNat ≤ 0x7F) ∧
    (0x80 ≤ (0x80 : Byte).toNat ∧ (0xBF : Byte).toNat ≤ 0xBF) ∧
    (0xC0 ≤ (0xC0 : Byte).toNat ∧ (0xFD : Byte).toNat ≤ 0xFD) ∧ (0xFE : Byte).toNat = 0xFE ∧
    (0xFF : Byte).toNat = 0xFF ∧ (0xC0 ≤ (0xFF : Byte).toNat ∧ (0xFF : Byte).toNat ≠ 0xFE) ∧
    availNumber 0 = 0 ∧ 1 ≤ availNumber 1 ∧ availNumber 1 < 2 ∧ 2 ≤ availNumber 2 ∧ availNumber 3 < 4 ∧
    4 ≤ availNumber 4 ∧ availNumber 7 = 4 := by decide

theorem witness_UnpackReadsEveryFirstByte : Ready (blockIn .decode) := rfl

theorem witness_DecChunkDecodesOneChunk : ReadyIn .decode (decodedBlock ⟨1, 2, 3⟩) ∧
    ((decodedBlock ⟨1, 2, 3⟩).cacheRead 34).valid = true ∧ ((decodedBlock ⟨1, 2, 3⟩).cacheRead 35).valid = false ∧
    (¬ OutOfRange 0 ∧ ¬ OutOfRange 255) ∧ (OutOfRange (-1) ∧ OutOfRange 256) :=
  ⟨⟨rfl, rfl⟩, rfl, rfl, by decide, by decide⟩

theorem witness_FieldCodecRoundTrips : (Chunk.run 62).packable = true ∧ (Chunk.run 1).pack.length ≤ 1 ∧
    (Chunk.diffSmall (-2) 1 0).packable = true ∧ (Chunk.diffMed (-32) 7 (-8)).packable = true ∧
    (Chunk.diffMed (-32) 7 (-8)).pack.length ≤ 2 ∧ (Chunk.rgb ⟨1, 2, 3⟩).pack.length ≤ 4 ∧
    (0xFD : Byte) ≠ 0xFF ∧ unpackChunk 0xFD 0 0 0 1 = .ok (.run 62) ∧
    unpackChunk 0x80 0x00 0 0 2 = .ok (.diffMed (-32) (-8) (-8)) := by decide

/-- The three kinds of ENC_PIXEL: a repeat at RUN = 60 and at 61; a pixel its slot holds; one it does not. -/
theorem witness_EncPixelFollowsThePriorityOrder : ReadyIn .encode (encodingBlock ⟨1, 2, 3⟩ 60) ∧
    (encodingBlock ⟨1, 2, 3⟩ 60).run.toNat ≤ 60 ∧ (encodingBlock ⟨1, 2, 3⟩ 61).run.toNat = 61 ∧
    (encodingBlock ⟨1, 2, 3⟩ 61).RunBounded ∧
    (⟨1, 2, 4⟩ : Pixel) ≠ (encodingBlock ⟨1, 2, 3⟩ 61).prev ∧
    ((encodingBlock ⟨1, 2, 3⟩ 61).insert ⟨1, 2, 4⟩).cacheRead (slotOf ⟨1, 2, 4⟩) = ⟨true, ⟨1, 2, 4⟩⟩ ∧
    (encodingBlock ⟨1, 2, 3⟩ 61).cacheRead (slotOf ⟨1, 2, 4⟩) ≠ ⟨true, ⟨1, 2, 4⟩⟩ := by
  refine ⟨⟨rfl, rfl⟩, by decide, by decide, ?_, by decide, by decide, by decide⟩
  show (61 : BitVec 6).toNat ≤ 61
  decide

/-- The statements about runs, ENC_FLUSH and the bounds of ENC_PIXEL ask for these two. -/
theorem witness_openRun : ReadyIn .encode (encodingBlock ⟨1, 2, 3⟩ 61) ∧ (encodingBlock ⟨1, 2, 3⟩ 61).RunBounded ∧
    (encodingBlock ⟨1, 2, 3⟩ 61).run ≠ 0 := by
  refine ⟨⟨rfl, rfl⟩, ?_, by decide⟩
  show (61 : BitVec 6).toNat ≤ 61
  decide

theorem witness_FirstPixelIsComparedWithTheSeed : (⟨0, 0, 1⟩ : Pixel) ≠ ⟨0, 0, 0⟩ := by decide

theorem witness_EncoderPacksInRange : Ready (encodingBlock ⟨1, 2, 3⟩ 61) ∧
    ∃ t r, exec (.encPixel ⟨1, 2, 3⟩) (encodingBlock ⟨1, 2, 3⟩ 61) = .next t ∧ t.rsp = some r :=
  ⟨rfl, _, _, rfl, rfl⟩

theorem witness_ChunkRowsDecodeTheirFields : ReadyIn .decode (decodedBlock ⟨255, 0, 0⟩) := ⟨rfl, rfl⟩

theorem witness_DecChunkExecutesTheChunk :
    decodeChunk ([0xFE, 1, 2, 3].take (availNumber 7)) = .ok (.rgb ⟨1, 2, 3⟩) ∧
    decodeChunk ([0xBF, 0xFF, 0, 0].take (availNumber 2)) = .ok (.diffMed 63 15 15) := by decide

theorem witness_FaultedBlockRefuses : isCommand (.pixEq ⟨0, 0, 0⟩ ⟨0, 0, 0⟩) = true ∧ ¬ Ready faultedBlock ∧
    (Instr.pixEq ⟨0, 0, 0⟩ ⟨0, 0, 0⟩) ≠ .stateRead ∧ (∀ slot, (Instr.pixEq ⟨0, 0, 0⟩ ⟨0, 0, 0⟩) ≠ .cacheRead slot) ∧
    ¬ LegalStart (.pixEq ⟨0, 0, 0⟩ ⟨0, 0, 0⟩) ∧ ¬ LegalStart (.start 3) ∧
    { faultedBlock with pending := [.command ⟨0x1F, 0, 0⟩] }.pending = .command ⟨0x1F, 0, 0⟩ :: [] ∧
    decode (.command ⟨0x1F, 0, 0⟩) = .error (.unassignedOp 0x1F) := by
  refine ⟨rfl, fun h => (by cases h), by decide, fun _ h => (by cases h), ?_, ?_, rfl, rfl⟩
  · rintro ⟨m, h, -⟩
    cases h
  · rintro ⟨m, h, hm⟩
    cases h
    exact hm rfl

theorem witness_WrongModeRaisesModeError : isCommand .encFlush = true ∧
    modeRequired .encFlush = some (.encode, 0x1D) ∧ Ready (blockIn .decode) ∧ (blockIn .decode).mode ≠ .encode ∧
    modeRequired .stateRead = none := ⟨rfl, rfl, rfl, by decide, rfl⟩

theorem witness_UnassignedOpIsIllegal : Ready State.reset ∧ (0x1F : BitVec 5) ∈ unassignedOps ∧
    (0x00 : BitVec 5) ∈ unassignedOps ∧ bitsOf 0x3 1 0 = 3 ∧
    { State.reset with pending := [.command ⟨0x01, 3, 0⟩] }.pending = .command ⟨0x01, 3, 0⟩ :: [] :=
  ⟨rfl, by decide, by decide, by decide, rfl⟩

theorem witness_ErrorsArePrecise : isCommand (.packRun 63) = true ∧ Ready State.reset ∧
    ∃ t r, exec (.packRun 63) State.reset = .next t ∧ t.rsp = some r ∧ r.err ≠ .noError :=
  ⟨rfl, rfl, _, _, rfl, rfl, by decide⟩

theorem witness_OnlyStartOrResetClearsError : ¬ Ready faultedBlock ∧
    (∃ t, step { faultedBlock with pending := [.reset] } = .next t ∧ t.err ≠ faultedBlock.err) ∧
    ∃ t, step { faultedBlock with pending := [.command ⟨0x01, 0, 0⟩] } = .next t ∧ t.err ≠ faultedBlock.err :=
  ⟨fun h => (by cases h), ⟨_, rfl, by decide⟩, ⟨_, rfl, by decide⟩⟩

/-- Each piece of state is written by some command. -/
theorem witness_StateIsWrittenOnlyByItsWriters :
    (∃ t, exec (.run 0) State.reset = .next t) ∧
    (∃ t, exec (.rgb ⟨1, 2, 3⟩) (blockIn .decode) = .next t ∧ t.prev ≠ (blockIn .decode).prev ∧
      (t.cacheRead 34).valid ≠ ((blockIn .decode).cacheRead 34).valid ∧
      (t.cacheRead 34).pixel ≠ ((blockIn .decode).cacheRead 34).pixel) ∧
    (∃ t, exec .encFlush (encodingBlock ⟨1, 2, 3⟩ 61) = .next t ∧ t.run ≠ (encodingBlock ⟨1, 2, 3⟩ 61).run) ∧
    (∃ t, exec (.start 0) faultedBlock = .next t ∧ t.err ≠ faultedBlock.err) ∧
    (∃ t, exec (.start 1) State.reset = .next t ∧ t.mode ≠ State.reset.mode) :=
  ⟨⟨_, rfl⟩, ⟨_, rfl, by decide, by decide, by decide⟩, ⟨_, rfl, by decide⟩, ⟨_, rfl, by decide⟩, ⟨_, rfl, by decide⟩⟩

theorem witness_PureCommandsAreIdempotent : isPure (.packRun 62) = true ∧
    (∃ t r, exec (.packRun 62) State.reset = .next t ∧ t.rsp = some r ∧ r.err = .noError) ∧
    ReadyIn .idle (State.reset.insert ⟨1, 2, 3⟩) ∧ ∃ t, exec .cacheClear (State.reset.insert ⟨1, 2, 3⟩) = .next t :=
  ⟨rfl, ⟨_, _, rfl, rfl, rfl⟩, ⟨rfl, rfl⟩, _, rfl⟩

/-- Two states that differ, but in the pixel of an empty slot only. -/
theorem witness_EmptySlotPixelsAreUnobservable :
    ∃ s t : State, s ≠ t ∧ State.SameObservable s t ∧ s.rsp = t.rsp := by
  refine ⟨State.reset, (State.reset.insert ⟨1, 2, 3⟩).cacheClear, ?_, ⟨rfl, rfl, rfl, rfl, ?_, rfl⟩, rfl⟩
  · intro h
    have h2 := congrArg (fun s : State => (s.cacheRead 34).pixel) h
    revert h2
    decide
  · intro slot
    revert slot
    decide

theorem witness_DecodeOfEncodeIsIdentity : (Instr.start 2).wellFormed = true ∧ (Instr.run 63).wellFormed = true :=
  ⟨rfl, rfl⟩

theorem witness_EncodeOfDecodeIsCanonical :
    decode (.command ⟨0x08, 0xFF010203, 0xFF010204⟩) = .ok (.pixEq ⟨1, 2, 3⟩ ⟨1, 2, 4⟩) ∧
    decode (.chunk [0xAA, 0x89, 0x5D]) = .ok (.diffMed 42 8 9) := by decide

theorem witness_StepRunsTheDecodedInstruction :
    { State.reset with pending := [.chunk [0xC0], .reset] }.pending = .chunk [0xC0] :: [.reset] ∧
    decode (.chunk [0xC0]) = .ok (.run 0) ∧ State.reset.pending = [] := ⟨rfl, rfl, rfl⟩

theorem witness_TruncatedPresentationRaises :
    ReadyIn .decode { blockIn .decode with pending := [.chunk [0xFE, 1, 2]] } ∧
    decode (.chunk [0xFE, 1, 2]) = .error (.truncatedChunk 3) ∧ decode (.chunk []) = .error (.truncatedChunk 0) ∧
    decode (.chunk [0xBF]) = .error (.truncatedChunk 1) := ⟨⟨rfl, rfl⟩, rfl, rfl, rfl⟩

/-- The image of Scenario A, cut after its first pixel. -/
theorem witness_CachesAgreeAfterEveryPrefix : ∃ r s0 part e bytes s' out u,
    hostCommand (.start 1) State.reset = some (r, s0) ∧ encodePixels [⟨10, 10, 11⟩] s0 = some (part, e) ∧
    encodeImage ([⟨10, 10, 11⟩] ++ [⟨9, 11, 10⟩]) State.reset = some (bytes, s') ∧
    decodeImage [(⟨10, 10, 11⟩ : Pixel)].length bytes faultedBlock = some (out, u) :=
  ⟨_, _, _, _, _, _, _, _, rfl, rfl, rfl, rfl⟩

theorem witness_FileRoundTripsThroughTheHost :
    ([⟨1, 2, 3⟩, ⟨1, 2, 3⟩, ⟨0, 0, 0⟩] : List Pixel).length = (1 : Word).toNat * (3 : Word).toNat ∧
    ∃ m0 m1 m2 m3 : Byte, (m0, m1, m2, m3) ≠ Config.magic ∧ 10 ≤ (List.replicate 10 (0 : Byte)).length := by
  refine ⟨by decide, Config.magic.1 + 1, 0, 0, 0, ?_, by decide⟩
  intro h
  have h2 := congrArg Prod.fst h
  have h3 : ∀ x : Byte, x + 1 ≠ x := by decide
  exact h3 _ h2

end Sys2Proof.Tests
end

section
/-! The step and the host's queue (spec/00_scope.md R9, spec/20_memory.md R48, R251, R262). -/

namespace Sys2Proof.Machine

/-- Settles O47: a decoded request is taken and run by `step_decoded`, an empty queue holds the state by
`step_empty`. -/
theorem stepRunsTheDecodedInstruction : Obligations.StepRunsTheDecodedInstruction :=
  ⟨fun _ _ _ _ hpending hdecode => step_decoded hpending hdecode, fun _ hempty => step_empty hempty⟩

end Sys2Proof.Machine
end

section
/-! What an instruction can do to the state, said once: the inversion of `exec` by effects, behind the gate of R215
and with the writers of R20. The invariant and the table of writers are case analyses over it. -/

namespace Sys2Proof.Machine

open Sys2Proof.Claims

/-- What an instruction can do to the state, up to the response it gives. -/
inductive Effect : Instr → State → State → Prop where
  /-- nothing is written: a refusal, a read or a pure command (R214, R49) -/
  | answer {i s} (r : Response) : Effect i s (s.respond r)
  /-- an error is latched; the block never raises FormatError (R232, R237) -/
  | error {i s} (code : ErrCode) (info : Byte) (hcode : code ≠ .noError) (hformat : code ≠ .formatError) :
      Effect i s (s.raise code info)
  /-- START (R210) -/
  | start {s} (m : BitVec 2) (mode : Mode) (r : Response) : Effect (.start m) s ((s.startImage mode).respond r)
  /-- CACHE_CLEAR (R117) -/
  | clear {s} (r : Response) : Effect .cacheClear s (s.cacheClear.respond r)
  /-- CACHE_PROBE (R118) -/
  | probe {s} (p : Pixel) (r : Response) : Effect (.cacheProbe p) s ((s.probe p).2.respond r)
  /-- CACHE_INSERT (R119) -/
  | insert {s} (p : Pixel) (r : Response) : Effect (.cacheInsert p) s ((s.insert p).respond r)
  /-- ENC_PIXEL of a repeat: the open run counts on, or is emitted before it reaches 62 (R173) -/
  | encodeRepeat {s} (p : Pixel) (run : BitVec 6) (r : Response) (hmode : s.mode = .encode)
      (hrun : s.run.toNat ≤ 61 → run.toNat ≤ 61) : Effect (.encPixel p) s ({ s with run := run }.respond r)
  /-- ENC_PIXEL of any other pixel (R174 to R180) -/
  | encodeChange {s} (p : Pixel) (r : Response) :
      Effect (.encPixel p) s ({ (s.probe p).2 with run := 0, prev := p }.respond r)
  /-- ENC_FLUSH (R181) -/
  | flush {s} (r : Response) : Effect .encFlush s ({ s with run := 0 }.respond r)
  /-- a RUN or INDEX chunk (R193, R194) -/
  | decodeKnown {i s} (p : Pixel) (r : Response) (hi : isDecode i = true) : Effect i s ({ s with prev := p }.respond r)
  /-- an RGB, DIFF_SMALL or DIFF_MED chunk (R192, R198) -/
  | decodeNew {i s} (p : Pixel) (r : Response) (hi : isDecode i = true) :
      Effect i s ({ s.insert p with prev := p }.respond r)

/-! ### The rules of the instructions -/

theorem packOrRaise_effect (i : Instr) (op : BitVec 5) (fits : Bool) (c : Chunk) (s : State) :
    Effect i s (packOrRaise op fits c s) := by
  cases fits with
  | true => exact .answer _
  | false => exact .error _ _ (by decide) (by decide)

theorem unpackRule_effect (i : Instr) (s0 s1 s2 s3 : Byte) (avail : BitVec 3) (s : State) :
    Effect i s (unpackRule s0 s1 s2 s3 avail s) := by
  unfold unpackRule
  split
  · exact .error _ _ (by decide) (by decide)
  · exact .answer _

theorem decodeDelta_effect {i : Instr} (hi : isDecode i = true) (k : Kind) (dr dg db : Int) (s : State) :
    Effect i s (decodeDelta k dr dg db s) := by
  unfold decodeDelta
  split
  · exact .error _ _ (by decide) (by decide)
  · exact .decodeNew _ _ hi

theorem decodeStep_effect {i : Instr} (hi : isDecode i = true) (c : Chunk) (s : State) :
    Effect i s (decodeStep c s) := by
  cases c with
  | run n => exact .decodeKnown _ _ hi
  | index slot =>
    simp only [decodeStep]
    split
    · exact .decodeKnown _ _ hi
    · exact .error _ _ (by decide) (by decide)
  | diffSmall dr dg db => exact decodeDelta_effect hi _ _ _ _ s
  | diffMed dg u v => exact decodeDelta_effect hi _ _ _ _ s
  | rgb p => exact .decodeNew _ _ hi

theorem decChunkRule_effect {i : Instr} (hi : isDecode i = true) (s0 s1 s2 s3 : Byte) (avail : BitVec 3) (s : State) :
    Effect i s (decChunkRule s0 s1 s2 s3 avail s) := by
  unfold decChunkRule
  split
  · exact .error _ _ (by decide) (by decide)
  · exact decodeStep_effect hi _ s

/-- A run of at most 61 that counts on without reaching 62 is at most 61 (R173). -/
theorem run_succ_le {run : BitVec 6} (hne : run + 1 ≠ BitVec.ofNat 6 Config.runMax) (h : run.toNat ≤ 61) :
    (run + 1).toNat ≤ 61 := by
  have hne' : run + 1 ≠ 62#6 := hne
  bv_omega

theorem encodePixel_effect (p : Pixel) {s : State} (hmode : s.mode = .encode) :
    Effect (.encPixel p) s (encodePixel p s) := by
  unfold encodePixel Machine.encodeRepeat
  split
  · split
    · exact .encodeRepeat p 0 _ hmode fun _ => by decide
    · next hne => exact .encodeRepeat p _ _ hmode (run_succ_le hne)
  · exact .encodeChange p _

/-- The rule of a legal instruction, in a mode it is accepted in, has one of the effects. -/
theorem ruleOf_effect {i : Instr} {s : State} (hlegal : legalOf i = true)
    (hmode : ∀ m, requiredMode (opOf i) = some m → s.mode = m) : Effect i s (ruleOf i s) := by
  cases i with
  | start m =>
    obtain ⟨mode, h⟩ := Option.isSome_iff_exists.1 hlegal
    simp only [ruleOf, h]
    exact .start m mode _
  | stateRead => exact .answer _
  | cacheRead slot => exact .answer _
  | cacheClear => exact .clear _
  | cacheProbe p => exact .probe p _
  | cacheInsert p => exact .insert p _
  | pixEq p q => exact .answer _
  | pixHash p => exact .answer _
  | pixDelta p q => exact .answer _
  | packRun n => exact packOrRaise_effect ..
  | packIndex slot => exact packOrRaise_effect ..
  | packDiffSmall dr dg db => exact packOrRaise_effect ..
  | packDiffMed dg u v => exact packOrRaise_effect ..
  | packRgb p => exact packOrRaise_effect ..
  | unpack s0 s1 s2 s3 avail => exact unpackRule_effect ..
  | encPixel p => exact encodePixel_effect p (hmode .encode rfl)
  | encFlush => exact .flush _
  | decChunk s0 s1 s2 s3 avail => exact decChunkRule_effect rfl ..
  | rgb p => exact decodeStep_effect rfl (.rgb p) s
  | index slot => exact decodeStep_effect rfl (.index slot) s
  | diffSmall rr gg bb => exact decodeStep_effect rfl (diffSmallFields rr gg bb) s
  | diffMed gggggg uuuu vvvv => exact decodeStep_effect rfl (diffMedFields gggggg uuuu vvvv) s
  | run nnnnnn => exact decodeStep_effect rfl (runFields nnnnnn) s

/-! ### The gate before the rules -/

/-- A command that runs while the block is faulted is accepted in every mode (R213, R214). -/
theorem requiredMode_of_runsWhileFaulted {op : BitVec 5} {legal : Bool} (h : runsWhileFaulted op legal = true) :
    requiredMode op = none := by
  have hop : op = Op.stateRead ∨ op = Op.cacheRead ∨ op = Op.start := by
    simp only [runsWhileFaulted, Bool.or_eq_true, Bool.and_eq_true, beq_iff_eq] at h
    tauto
  obtain rfl | rfl | rfl := hop <;> rfl

/-- An illegal START does not run while the block is faulted (R214). -/
theorem legalOf_of_runsWhileFaulted {i : Instr} (h : runsWhileFaulted (opOf i) (legalOf i) = true) :
    legalOf i = true := by
  cases i with
  | start m => simpa [opOf, runsWhileFaulted] using h
  | _ => rfl

/-- Every instruction has one of the effects. -/
theorem exec_effect {i : Instr} {s t : State} (h : exec i s = .next t) : Effect i s t := by
  obtain ⟨-, -, rfl⟩ | ⟨-, hruns, rfl⟩ | ⟨-, -, rfl⟩ | ⟨-, -, -, rfl⟩ | ⟨-, hlegal, hmode, rfl⟩ := exec_cases h
  · exact .answer _
  · refine ruleOf_effect (legalOf_of_runsWhileFaulted hruns) fun m hm => ?_
    rw [requiredMode_of_runsWhileFaulted hruns] at hm
    cases hm
  · exact .error _ _ (by decide) (by decide)
  · exact .error _ _ (by decide) (by decide)
  · exact ruleOf_effect hlegal hmode

end Sys2Proof.Machine
end

section
/-! The invariant of the block's state (spec/10_state.md R23, R33; spec/41_cache.md R120; R232). -/

namespace Sys2Proof.Machine

/-- A state as reset and START leave it meets the invariant: every slot empty, RUN = 0 and ERR = 0 (R33). -/
theorem State.inv_of_fresh {s : State} (hcache : ∀ slot, (s.cacheRead slot).valid = false) (hrun : s.run = 0)
    (herr : s.err = ⟨.noError, 0⟩) : s.Inv where
  slots := fun slot hvalid => by simp [hcache slot] at hvalid
  run := by simp [State.RunBounded, hrun]
  runMode := fun _ => hrun
  err := by simp [State.ErrLegal, herr]

theorem State.reset_inv : State.reset.Inv :=
  State.inv_of_fresh (fun slot => by simp [CacheEntry.atReset]) rfl rfl

theorem State.hostReset_inv (s : State) : s.hostReset.Inv :=
  State.inv_of_fresh (fun slot => by simp [CacheEntry.atReset]) rfl rfl

theorem State.startImage_inv (s : State) (m : Mode) : (s.startImage m).Inv :=
  State.inv_of_fresh (fun slot => by simp) rfl rfl

/-- Writing a pixel to its own slot keeps the slots hashed (R120). -/
theorem State.SlotsHashed.of_write {s t : State} (h : s.SlotsHashed) (p : Pixel)
    (hwrite : ∀ slot, t.cacheRead slot = if slot = pixHash p then ⟨true, p⟩ else s.cacheRead slot) :
    t.SlotsHashed := by
  intro slot
  rw [hwrite]
  split
  · next hslot => exact fun _ => hslot.symm
  · exact h slot

theorem State.SlotsHashed.insert {s : State} (h : s.SlotsHashed) (p : Pixel) : (s.insert p).SlotsHashed :=
  h.of_write p (s.cacheRead_insert p)

theorem State.SlotsHashed.probe {s : State} (h : s.SlotsHashed) (p : Pixel) : (s.probe p).2.SlotsHashed :=
  h.of_write p (s.cacheRead_probe p)

theorem State.SlotsHashed.cacheClear (s : State) : s.cacheClear.SlotsHashed := by
  intro slot hvalid
  simp at hvalid

/-- The invariant does not look at the response. -/
theorem State.Inv.respond {s : State} (h : s.Inv) (r : Response) : (s.respond r).Inv :=
  ⟨h.slots, h.run, h.runMode, h.err⟩

theorem State.Inv.raise {s : State} (h : s.Inv) {code : ErrCode} (info : Byte) (hcode : code ≠ .noError)
    (hformat : code ≠ .formatError) : (s.raise code info).Inv :=
  ⟨h.slots, h.run, h.runMode, hformat, fun hno => absurd hno hcode⟩

/-- Probe writes the cache only, and there keeps the slots hashed (R112). -/
theorem State.Inv.probe {s : State} (h : s.Inv) (p : Pixel) : (s.probe p).2.Inv where
  slots := h.slots.probe p
  run := by simpa [State.RunBounded] using h.run
  runMode := by simpa [State.RunOnlyWhenEncoding] using h.runMode
  err := by simpa [State.ErrLegal] using h.err

/-- Closing the open run keeps the invariant, whatever PREV becomes (R174, R181). -/
theorem State.Inv.closeRun {s : State} (h : s.Inv) (p : Pixel) : { s with run := 0, prev := p }.Inv :=
  ⟨h.slots, Nat.zero_le _, fun _ => rfl, h.err⟩

/-- The invariant survives every effect. -/
theorem Effect.keeps_inv {i : Instr} {s t : State} (heffect : Effect i s t) (h : s.Inv) : t.Inv := by
  have ⟨hslots, hrun, hrunMode, herr⟩ := h
  cases heffect with
  | answer r => exact h.respond r
  | error code info hcode hformat => exact h.raise info hcode hformat
  | start m mode r => exact (s.startImage_inv mode).respond r
  | clear r => exact ⟨.cacheClear s, hrun, hrunMode, herr⟩
  | probe p r => exact (h.probe p).respond r
  | insert p r => exact ⟨hslots.insert p, hrun, hrunMode, herr⟩
  | encodeRepeat p run r hmode hbound => exact ⟨hslots, hbound hrun, fun hne => absurd hmode hne, herr⟩
  | encodeChange p r => exact ((h.probe p).closeRun p).respond r
  | flush r => exact (h.closeRun s.prev).respond r
  | decodeKnown p r hi => exact ⟨hslots, hrun, hrunMode, herr⟩
  | decodeNew p r hi => exact ⟨hslots.insert p, hrun, hrunMode, herr⟩

/-- Every instruction keeps the invariant. -/
theorem exec_keeps_inv {i : Instr} {s t : State} (hexec : exec i s = .next t) (h : s.Inv) : t.Inv :=
  (exec_effect hexec).keeps_inv h

/-- A gated rule that keeps the invariant still does behind its gate. -/
theorem State.Inv.gate {s : State} (h : s.Inv) (op : BitVec 5) (legal : Bool) (body : State → State)
    (hbody : (body s).Inv) : (gate op legal body s).Inv := by
  obtain ⟨-, -, e⟩ | ⟨-, -, e⟩ | ⟨-, -, e⟩ | ⟨-, -, -, e⟩ | ⟨-, -, -, e⟩ := gate_cases op legal body s <;> rw [e]
  · exact h.respond _
  · exact hbody
  · exact h.raise _ (by decide) (by decide)
  · exact h.raise _ (by decide) (by decide)
  · exact hbody

/-- A request the decoder rejects keeps the invariant. -/
theorem State.Inv.takeRejected {s : State} (h : s.Inv) (e : DecodeReject) : (s.takeRejected e).Inv := by
  cases e with
  | hostReset => exact s.hostReset_inv
  | unassignedOp op => exact h.gate op false (fun t => t) h
  | reservedStartMode => exact h.gate Op.start false (fun t => t) h
  | truncatedChunk avail =>
    exact h.gate Op.decChunk true (fun t => t.raise .unknownTag _) (h.raise _ (by decide) (by decide))

/-- Taking a request from the host's queue leaves the block as it is. -/
theorem State.Inv.withPending {s : State} (h : s.Inv) (rest : List HostRequest) : { s with pending := rest }.Inv :=
  ⟨h.slots, h.run, h.runMode, h.err⟩

/-- Settles O5: the reset state is a fresh one. -/
theorem resetMeetsInvariant : Obligations.ResetMeetsInvariant :=
  State.reset_inv

/-- Settles O7: a step holds the state, runs an instruction, which keeps the invariant by the effect it has, or takes
a rejected request. -/
theorem everyStepKeepsInvariant : Obligations.EveryStepKeepsInvariant := by
  intro s h
  cases hpending : s.pending with
  | nil =>
    rw [step_empty hpending]
    exact h
  | cons request rest =>
    have hrest := h.withPending rest
    cases hdecode : decode request with
    | ok i =>
      obtain ⟨t, ht⟩ := exec_next i { s with pending := rest }
      rw [step_decoded hpending hdecode, ht]
      exact exec_keeps_inv ht hrest
    | error e =>
      rw [step_rejected hpending hdecode]
      exact hrest.takeRejected e

end Sys2Proof.Machine
end

section
/-! The writers of each piece of state (spec/10_state.md R20): what an effect leaves unchanged. -/

namespace Sys2Proof.Machine

open Sys2Proof.Claims

section

variable {i : Instr} {s t : State}

theorem Effect.prev_writer (h : Effect i s t) (hne : t.prev ≠ s.prev) : isStart i || isEncPixel i || isDecode i := by
  cases h with
  | start m mode r => rfl
  | probe p r => exact absurd (s.probe_prev p) hne
  | encodeChange p r => rfl
  | decodeKnown p r hi => simp [hi]
  | decodeNew p r hi => simp [hi]
  | _ => exact absurd rfl hne

theorem Effect.run_writer (h : Effect i s t) (hne : t.run ≠ s.run) :
    isStart i || isEncPixel i || i == .encFlush := by
  cases h with
  | start m mode r => rfl
  | probe p r => exact absurd (s.probe_run p) hne
  | encodeRepeat p run r hmode hrun => rfl
  | encodeChange p r => rfl
  | flush r => rfl
  | _ => exact absurd rfl hne

theorem Effect.mode_writer (h : Effect i s t) (hne : t.mode ≠ s.mode) : isStart i := by
  cases h with
  | start m mode r => rfl
  | probe p r => exact absurd (s.probe_mode p) hne
  | encodeChange p r => exact absurd (s.probe_mode p) hne
  | _ => exact absurd rfl hne

theorem Effect.err_writer (h : Effect i s t) (hne : t.err ≠ s.err) :
    isStart i = true ∨ ∃ r, t.rsp = some r ∧ r.err ≠ .noError := by
  cases h with
  | error code info hcode hformat => exact .inr ⟨_, rfl, hcode⟩
  | start m mode r => exact .inl rfl
  | probe p r => exact absurd (s.probe_err p) hne
  | encodeChange p r => exact absurd (s.probe_err p) hne
  | _ => exact absurd rfl hne

/-- What writes an entry at all: the writers of CV, and those of CP without START and CACHE_CLEAR. -/
theorem Effect.entry_writer (h : Effect i s t) (slot : SlotIdx) (hne : t.cacheRead slot ≠ s.cacheRead slot) :
    (isCacheWrite i || isEncPixel i || isDecode i) ∨
      (isStart i || i == .cacheClear) ∧ (t.cacheRead slot).pixel = (s.cacheRead slot).pixel := by
  cases h with
  | start m mode r => exact .inr ⟨rfl, by simp⟩
  | clear r => exact .inr ⟨rfl, by simp⟩
  | probe p r => exact .inl rfl
  | insert p r => exact .inl rfl
  | encodeChange p r => exact .inl rfl
  | decodeNew p r hi => exact .inl (by simp [hi])
  | _ => exact absurd rfl hne

theorem Effect.valid_writer (h : Effect i s t) (slot : SlotIdx)
    (hne : (t.cacheRead slot).valid ≠ (s.cacheRead slot).valid) :
    isStart i || i == .cacheClear || isCacheWrite i || isEncPixel i || isDecode i := by
  have := h.entry_writer slot fun e => hne (by rw [e])
  simp only [Bool.or_eq_true] at this ⊢
  tauto

theorem Effect.pixel_writer (h : Effect i s t) (slot : SlotIdx)
    (hne : (t.cacheRead slot).pixel ≠ (s.cacheRead slot).pixel) : isCacheWrite i || isEncPixel i || isDecode i :=
  (h.entry_writer slot fun e => hne (by rw [e])).resolve_right fun hkept => hne hkept.2

/-- No instruction touches the host's queue. -/
theorem Effect.pending_eq (h : Effect i s t) : t.pending = s.pending := by
  cases h with
  | probe p r => exact s.probe_pending p
  | encodeChange p r => exact s.probe_pending p
  | _ => rfl

end

/-- Settles O39, one writer lemma for each piece of state. -/
theorem stateIsWrittenOnlyByItsWriters : Obligations.StateIsWrittenOnlyByItsWriters := by
  intro i s t hexec
  have h := exec_effect hexec
  exact ⟨h.prev_writer, h.run_writer, h.mode_writer, h.err_writer, h.valid_writer, h.pixel_writer, h.pending_eq⟩

end Sys2Proof.Machine
end

section
/-! Two states the host cannot tell apart stay so (spec/10_state.md R30, R34): every operation, rule, gate and step
takes states that differ in the pixels of empty slots only to such states, with the same response. -/

namespace Sys2Proof.Machine

/-- Two states that the host cannot tell apart and that hold the same response. -/
structure State.Agree (s t : State) : Prop extends State.SameObservable s t where
  rsp : s.rsp = t.rsp

section

variable {s t : State}

/-! ### The cache -/

/-- Whether a slot holds a pixel is the same in caches that agree in their genuine entries. -/
theorem State.SameCache.holds_eq (h : s.SameCache t) (slot : SlotIdx) (p : Pixel) :
    (s.cacheRead slot).holds p = (t.cacheRead slot).holds p := by
  obtain ⟨hvalid, hpixel⟩ := h slot
  cases hv : (s.cacheRead slot).valid with
  | false => simp [CacheEntry.holds, ← hvalid, hv]
  | true => simp [CacheEntry.holds, ← hvalid, hv, hpixel hv]

theorem State.SameObservable.insert (h : s.SameObservable t) (p : Pixel) : (s.insert p).SameObservable (t.insert p) where
  prev := h.prev
  run := h.run
  mode := h.mode
  err := h.err
  cache slot := by
    rw [s.cacheRead_insert, t.cacheRead_insert]
    split
    · exact ⟨rfl, fun _ => rfl⟩
    · exact h.cache slot
  pending := h.pending

theorem State.SameObservable.cacheClear (h : s.SameObservable t) : s.cacheClear.SameObservable t.cacheClear where
  prev := h.prev
  run := h.run
  mode := h.mode
  err := h.err
  cache slot := by simp
  pending := h.pending

/-- Probe hits in both states or misses in both (R112). -/
theorem State.SameObservable.probe (h : s.SameObservable t) (p : Pixel) :
    (s.probe p).1 = (t.probe p).1 ∧ (s.probe p).2.SameObservable (t.probe p).2 := by
  have hholds := h.cache.holds_eq (pixHash p) p
  obtain ⟨hs, e⟩ | ⟨hs, e⟩ := s.probe_cases p
  · rw [e, State.probe_hit (hholds ▸ hs)]
    exact ⟨rfl, h⟩
  · rw [e, State.probe_miss (hholds ▸ hs)]
    exact ⟨rfl, h.insert p⟩

/-! ### Registers and responses -/

theorem State.SameObservable.withRun (h : s.SameObservable t) (run : BitVec 6) :
    { s with run := run }.SameObservable { t with run := run } :=
  ⟨h.prev, rfl, h.mode, h.err, h.cache, h.pending⟩

theorem State.SameObservable.withPrev (h : s.SameObservable t) (p : Pixel) :
    { s with prev := p }.SameObservable { t with prev := p } :=
  ⟨rfl, h.run, h.mode, h.err, h.cache, h.pending⟩

theorem State.SameObservable.withPending (h : s.SameObservable t) (rest : List HostRequest) :
    { s with pending := rest }.SameObservable { t with pending := rest } :=
  ⟨h.prev, h.run, h.mode, h.err, h.cache, rfl⟩

/-- What is observable does not look at the response, so the same response makes the states agree. -/
theorem State.SameObservable.respond (h : s.SameObservable t) (r : Response) : (s.respond r).Agree (t.respond r) :=
  ⟨⟨h.prev, h.run, h.mode, h.err, h.cache, h.pending⟩, rfl⟩

theorem State.SameObservable.raise (h : s.SameObservable t) (code : ErrCode) (info : Byte) :
    (s.raise code info).Agree (t.raise code info) :=
  ⟨⟨h.prev, h.run, h.mode, rfl, h.cache, h.pending⟩, rfl⟩

theorem State.SameObservable.refuse (h : s.SameObservable t) : s.refuse.Agree t.refuse := by
  rw [State.refuse, State.refuse, h.err]
  exact h.respond _

/-- START leaves one observable state, whatever the two states were (R34, R210). -/
theorem State.startImage_sameObservable (hpending : s.pending = t.pending) (m : Mode) :
    (s.startImage m).SameObservable (t.startImage m) where
  prev := rfl
  run := rfl
  mode := rfl
  err := rfl
  cache slot := by simp
  pending := hpending

theorem State.hostReset_agree (hpending : s.pending = t.pending) : s.hostReset.Agree t.hostReset :=
  ⟨⟨rfl, rfl, rfl, rfl, fun _ => ⟨rfl, fun _ => rfl⟩, hpending⟩, rfl⟩

/-! ### The rules of the instructions -/

theorem packOrRaise_agree (h : s.SameObservable t) (op : BitVec 5) (fits : Bool) (c : Chunk) :
    (packOrRaise op fits c s).Agree (packOrRaise op fits c t) := by
  cases fits with
  | true => exact h.respond _
  | false => exact h.raise _ _

theorem unpackRule_agree (h : s.SameObservable t) (s0 s1 s2 s3 : Byte) (avail : BitVec 3) :
    (unpackRule s0 s1 s2 s3 avail s).Agree (unpackRule s0 s1 s2 s3 avail t) := by
  unfold unpackRule
  split
  · exact h.raise _ _
  · exact h.respond _

/-- STATE_READ shows registers only. -/
theorem stateRead_agree (h : s.SameObservable t) : (ruleOf .stateRead s).Agree (ruleOf .stateRead t) := by
  simp only [ruleOf, stateReadR0, stateReadR1, h.prev, h.run, h.mode, h.err]
  exact h.respond _

/-- CACHE_READ shows the pixel of a genuine slot only (R116). -/
theorem State.SameCache.cacheReadR0_eq (h : s.SameCache t) (slot : SlotIdx) :
    cacheReadR0 (s.cacheRead slot) = cacheReadR0 (t.cacheRead slot) := by
  obtain ⟨hvalid, hpixel⟩ := h slot
  cases hv : (s.cacheRead slot).valid with
  | false => simp [cacheReadR0, ← hvalid, hv]
  | true => simp [cacheReadR0, ← hvalid, hv, hpixel hv]

theorem State.SameObservable.decoded (h : s.SameObservable t) (k : Kind) (p : Pixel) (count : Nat) :
    (s.decoded k p count).Agree (t.decoded k p count) :=
  (h.withPrev p).respond _

theorem decodeDelta_agree (h : s.SameObservable t) (k : Kind) (dr dg db : Int) :
    (decodeDelta k dr dg db s).Agree (decodeDelta k dr dg db t) := by
  rw [decodeDelta, decodeDelta, h.prev]
  split
  · exact h.raise _ _
  · exact (h.insert _).decoded _ _ _

/-- An INDEX chunk reads the pixel of a genuine slot only (R194). -/
theorem decodeIndex_agree (h : s.SameObservable t) (slot : SlotIdx) :
    (decodeStep (.index slot) s).Agree (decodeStep (.index slot) t) := by
  obtain ⟨hvalid, hpixel⟩ := h.cache slot
  simp only [decodeStep, ← hvalid]
  split
  · next hv =>
    rw [hpixel hv]
    exact h.decoded _ _ _
  · exact h.raise _ _

theorem decodeStep_agree (h : s.SameObservable t) (c : Chunk) : (decodeStep c s).Agree (decodeStep c t) := by
  cases c with
  | run n =>
    rw [decodeStep, decodeStep, h.prev]
    exact h.decoded _ _ _
  | index slot => exact decodeIndex_agree h slot
  | diffSmall dr dg db => exact decodeDelta_agree h _ _ _ _
  | diffMed dg u v => exact decodeDelta_agree h _ _ _ _
  | rgb p => exact (h.insert p).decoded _ _ _

theorem decChunkRule_agree (h : s.SameObservable t) (s0 s1 s2 s3 : Byte) (avail : BitVec 3) :
    (decChunkRule s0 s1 s2 s3 avail s).Agree (decChunkRule s0 s1 s2 s3 avail t) := by
  unfold decChunkRule
  split
  · exact h.raise _ _
  · exact decodeStep_agree h _

theorem encodeRepeat_agree (h : s.SameObservable t) : (encodeRepeat s).Agree (encodeRepeat t) := by
  rw [encodeRepeat, encodeRepeat, h.run]
  split
  · exact (h.withRun _).respond _
  · exact (h.withRun _).respond _

theorem encodeChange_agree (h : s.SameObservable t) (p : Pixel) : (encodeChange p s).Agree (encodeChange p t) := by
  obtain ⟨hhit, hprobed⟩ := h.probe p
  simp only [encodeChange, h.run, h.prev, hhit]
  exact ((hprobed.withRun 0).withPrev p).respond _

theorem encodePixel_agree (h : s.SameObservable t) (p : Pixel) : (encodePixel p s).Agree (encodePixel p t) := by
  rw [encodePixel, encodePixel, h.prev]
  split
  · exact encodeRepeat_agree h
  · exact encodeChange_agree h p

theorem encFlush_agree (h : s.SameObservable t) : (ruleOf .encFlush s).Agree (ruleOf .encFlush t) := by
  simp only [ruleOf, h.run]
  exact (h.withRun 0).respond _

theorem cacheProbe_agree (h : s.SameObservable t) (p : Pixel) :
    (ruleOf (.cacheProbe p) s).Agree (ruleOf (.cacheProbe p) t) := by
  obtain ⟨hhit, hprobed⟩ := h.probe p
  simp only [ruleOf, hhit]
  exact hprobed.respond _

theorem start_agree (h : s.Agree t) (m : BitVec 2) : (ruleOf (.start m) s).Agree (ruleOf (.start m) t) := by
  simp only [ruleOf]
  split
  · exact (State.startImage_sameObservable h.pending _).respond _
  · exact h

/-- The rule of every instruction keeps two states in agreement. -/
theorem ruleOf_agree (h : s.Agree t) (i : Instr) : (ruleOf i s).Agree (ruleOf i t) := by
  have hobs := h.toSameObservable
  cases i with
  | start m => exact start_agree h m
  | stateRead => exact stateRead_agree hobs
  | cacheRead slot =>
    simp only [ruleOf, hobs.cache.cacheReadR0_eq slot]
    exact hobs.respond _
  | cacheClear => exact hobs.cacheClear.respond _
  | cacheProbe p => exact cacheProbe_agree hobs p
  | cacheInsert p => exact (hobs.insert p).respond _
  | pixEq p q => exact hobs.respond _
  | pixHash p => exact hobs.respond _
  | pixDelta p q => exact hobs.respond _
  | packRun n => exact packOrRaise_agree hobs _ _ _
  | packIndex slot => exact packOrRaise_agree hobs _ _ _
  | packDiffSmall dr dg db => exact packOrRaise_agree hobs _ _ _
  | packDiffMed dg u v => exact packOrRaise_agree hobs _ _ _
  | packRgb p => exact packOrRaise_agree hobs _ _ _
  | unpack s0 s1 s2 s3 avail => exact unpackRule_agree hobs s0 s1 s2 s3 avail
  | encPixel p => exact encodePixel_agree hobs p
  | encFlush => exact encFlush_agree hobs
  | decChunk s0 s1 s2 s3 avail => exact decChunkRule_agree hobs s0 s1 s2 s3 avail
  | rgb p => exact decodeStep_agree hobs (.rgb p)
  | index slot => exact decodeStep_agree hobs (.index slot)
  | diffSmall rr gg bb => exact decodeStep_agree hobs (diffSmallFields rr gg bb)
  | diffMed gggggg uuuu vvvv => exact decodeStep_agree hobs (diffMedFields gggggg uuuu vvvv)
  | run nnnnnn => exact decodeStep_agree hobs (runFields nnnnnn)

/-! ### The gate and the step -/

/-- The gate looks at ERR and MODE, which the two states share (R215). -/
theorem gate_agree (h : s.SameObservable t) (op : BitVec 5) (legal : Bool) (body : State → State)
    (hbody : (body s).Agree (body t)) : (gate op legal body s).Agree (gate op legal body t) := by
  obtain ⟨hf, hop, e⟩ | ⟨hf, hop, e⟩ | ⟨hf, rfl, e⟩ | ⟨hf, rfl, ⟨m, hr, hm⟩, e⟩ | ⟨hf, rfl, hm, e⟩ :=
    gate_cases op legal body s <;> rw [h.err] at hf <;> rw [e]
  · rw [gate_refused hf hop]
    exact h.refuse
  · rw [gate_runs_faulted hf hop]
    exact hbody
  · rw [gate_illegal hf]
    exact h.raise _ _
  · rw [h.mode] at hm
    rw [gate_wrongMode hf hr hm]
    exact h.raise _ _
  · rw [h.mode] at hm
    rw [gate_runs hf hm]
    exact hbody

theorem exec_agree (h : s.Agree t) (i : Instr) :
    ∃ s' t', exec i s = .next s' ∧ exec i t = .next t' ∧ s'.Agree t' :=
  ⟨_, _, exec_gate i s, exec_gate i t, gate_agree h.toSameObservable _ _ _ (ruleOf_agree h i)⟩

theorem takeRejected_agree (h : s.Agree t) (e : DecodeReject) : (s.takeRejected e).Agree (t.takeRejected e) := by
  have hobs := h.toSameObservable
  cases e with
  | hostReset => exact State.hostReset_agree h.pending
  | unassignedOp op => exact gate_agree hobs op false (fun u => u) h
  | reservedStartMode => exact gate_agree hobs Op.start false (fun u => u) h
  | truncatedChunk avail =>
    exact gate_agree hobs Op.decChunk true (fun u => u.raise .unknownTag _) (hobs.raise _ _)

/-- A step takes agreeing states to agreeing states. -/
theorem step_agree (h : s.Agree t) : ∃ s' t', step s = .next s' ∧ step t = .next t' ∧ s'.Agree t' := by
  cases hpending : t.pending with
  | nil => exact ⟨s, t, step_empty (h.pending.trans hpending), step_empty hpending, h⟩
  | cons request rest =>
    have hpending' : s.pending = request :: rest := h.pending.trans hpending
    have hrest : State.Agree { s with pending := rest } { t with pending := rest } :=
      ⟨h.toSameObservable.withPending rest, h.rsp⟩
    cases hdecode : decode request with
    | ok i =>
      rw [step_decoded hpending' hdecode, step_decoded hpending hdecode]
      exact exec_agree hrest i
    | error e =>
      rw [step_rejected hpending' hdecode, step_rejected hpending hdecode]
      exact ⟨_, _, rfl, rfl, takeRejected_agree hrest e⟩

/-! ### START -/

/-- START runs in every mode, faulted or not (R210, R214). -/
theorem exec_start (s : State) {m : BitVec 2} {mode : Mode} (hm : modeOf m = some mode) :
    exec (.start m) s = .next ((s.startImage mode).respondWords 0 0) := by
  have hlegal : legalOf (.start m) = true := by simp [legalOf, hm]
  have hrule : ruleOf (.start m) s = (s.startImage mode).respondWords 0 0 := by simp [ruleOf, hm]
  rw [exec_gate, hlegal, ← hrule]
  by_cases hf : s.err.code = .noError
  · rw [gate_runs hf fun _ h => by cases h]
  · rw [gate_runs_faulted hf rfl]

/-- Every mode operand but the reserved 3 names a mode (R210). -/
theorem modeOf_of_ne_three {m : BitVec 2} (h : m ≠ 3) : ∃ mode, modeOf m = some mode := by
  have hall : ∀ m : BitVec 2, m ≠ 3 → (modeOf m).isSome = true := by decide
  exact Option.isSome_iff_exists.1 (hall m h)

end

/-- Settles O42: `step_agree`, from agreement of the two states and of their responses. -/
theorem emptySlotPixelsAreUnobservable : Obligations.EmptySlotPixelsAreUnobservable := by
  intro s t hobs hrsp
  obtain ⟨s', t', hs, ht, h⟩ := step_agree ⟨hobs, hrsp⟩
  exact ⟨s', t', hs, ht, h.toSameObservable, h.rsp⟩

/-- Settles O4: START of a legal mode runs in both states, and writes everything the host can observe but the
queue. -/
theorem startForgetsThePreviousImage : Obligations.StartForgetsThePreviousImage := by
  intro s t m hm hpending
  obtain ⟨mode, hmode⟩ := modeOf_of_ne_three hm
  have h := (State.startImage_sameObservable hpending mode).respond { Response.zero with r0 := 0, r1 := 0 }
  exact ⟨_, _, exec_start s hmode, exec_start t hmode, h.toSameObservable, h.rsp⟩

end Sys2Proof.Machine
end

section
/-! The pure commands (spec/20_memory.md R49): they read neither the response given before nor write anything else. -/

namespace Sys2Proof.Machine

open Sys2Proof.Claims

/-- The rule of a pure command does not look at the response given before, and overwrites it. -/
theorem ruleOf_respond {i : Instr} (hpure : isPure i = true) (s : State) (r : Response) :
    ruleOf i (s.respond r) = ruleOf i s := by
  cases i with
  | stateRead => rfl
  | cacheRead slot => rfl
  | pixEq p q => rfl
  | pixHash p => rfl
  | pixDelta p q => rfl
  | packRun n => rfl
  | packIndex slot => rfl
  | packDiffSmall dr dg db => rfl
  | packDiffMed dg u v => rfl
  | packRgb p => rfl
  | unpack s0 s1 s2 s3 avail => rfl
  | _ => cases hpure

/-- A pure command answers in the same way whatever response was given before it. -/
theorem exec_respond {i : Instr} (hpure : isPure i = true) (s : State) (r : Response) :
    exec i (s.respond r) = exec i s := by
  rw [exec_gate, exec_gate, gate, gate, ruleOf_respond hpure]
  rfl

theorem isDecode_of_isPure {i : Instr} (hpure : isPure i = true) : isDecode i = false := by
  cases i <;> simp_all [isPure, isDecode]

/-- What a pure command can do: answer and write nothing, or raise an error. -/
theorem exec_pure_cases {i : Instr} {s t : State} (hpure : isPure i = true) (hexec : exec i s = .next t) :
    (∃ r, t = s.respond r) ∨ ∃ code info, code ≠ .noError ∧ t = s.raise code info := by
  cases exec_effect hexec with
  | answer r => exact .inl ⟨r, rfl⟩
  | error code info hcode hformat => exact .inr ⟨code, info, hcode, rfl⟩
  | decodeKnown p r hi => simp [isDecode_of_isPure hpure] at hi
  | decodeNew p r hi => simp [isDecode_of_isPure hpure] at hi
  | _ => cases hpure

/-- A second clear finds every slot empty and leaves the cache as it is (R117). -/
theorem State.cacheClear_cacheClear (s : State) : s.cacheClear.cacheClear = s.cacheClear := by
  simp [State.cacheClear, CacheEntry.emptied, Function.comp_def]

/-- The answer given after a clear is the one given last. -/
theorem State.cacheClear_respondWords (s : State) (r0 r1 r0' r1' : Word) :
    (s.respondWords r0 r1).cacheClear.respondWords r0' r1' = s.cacheClear.respondWords r0' r1' := rfl

/-- A legal command runs its rule in the mode it requires (R213, R215). -/
theorem exec_readyIn {i : Instr} {s : State} {mode : Mode} (h : ReadyIn mode s) (hlegal : legalOf i = true)
    (hmode : requiredMode (opOf i) = some mode) : exec i s = .next (ruleOf i s) := by
  obtain ⟨hready, rfl⟩ := h
  exact exec_ready hready hlegal fun m hm => Option.some.inj (hmode.symm.trans hm)

/-- CACHE_CLEAR runs in IDLE (R117, R213). -/
theorem exec_cacheClear {s : State} (h : ReadyIn .idle s) :
    exec .cacheClear s = .next (s.cacheClear.respondWords 0 0) :=
  exec_readyIn h rfl rfl

/-- Settles O40: a pure command that raises no error writes the response only, which no pure command reads; a second
CACHE_CLEAR finds the cache cleared. -/
theorem pureCommandsAreIdempotent : Obligations.PureCommandsAreIdempotent := by
  refine ⟨fun i s t r hpure hexec hrsp hok => ?_, fun s t hready hexec => ?_⟩
  · obtain ⟨r', rfl⟩ | ⟨code, info, hcode, rfl⟩ := exec_pure_cases hpure hexec
    · obtain rfl : r' = r := Option.some.inj hrsp
      exact ⟨rfl, (exec_respond hpure s r').trans hexec⟩
    · obtain rfl : Response.error code info = r := Option.some.inj hrsp
      exact absurd hok hcode
  · obtain rfl : s.cacheClear.respondWords 0 0 = t := by
      rw [exec_cacheClear hready] at hexec
      exact Host.Outcome.next.inj hexec
    have hagain := exec_cacheClear (s := s.cacheClear.respondWords 0 0) hready
    rwa [State.cacheClear_respondWords, s.cacheClear_cacheClear] at hagain

end Sys2Proof.Machine
end

section
/-! The codec's round trip on one chunk (spec/43_chunk_unpack.md R159): what a packing function writes, Unpack reads
back, whatever follows it. -/

namespace Sys2Proof.Machine

/-- The stored fields of DIFF_SMALL give its deltas back (R63, R71, R155). -/
theorem diffSmallFields_biased {dr dg db : Int} (h : diffSmallFits dr dg db = true) :
    diffSmallFields (biased Config.dsBias 2 dr) (biased Config.dsBias 2 dg) (biased Config.dsBias 2 db) =
      .diffSmall dr dg db := by
  obtain ⟨hr, hg, hb⟩ := (diffSmallFits_iff dr dg db).1 h
  simp only [diffSmallFields, Config.dsBias]
  rw [unbias_biased, unbias_biased, unbias_biased] <;> omega

/-- The stored fields of DIFF_MED give its quantities back (R62, R71, R156). -/
theorem diffMedFields_biased {dg u v : Int} (h : diffMedFits dg u v = true) :
    diffMedFields (biased Config.dmGBias 6 dg) (biased Config.dmRbBias 4 u) (biased Config.dmRbBias 4 v) =
      .diffMed dg u v := by
  obtain ⟨hg, hu, hv⟩ := (diffMedFits_iff dg u v).1 h
  simp only [diffMedFields, Config.dmGBias, Config.dmRbBias]
  rw [unbias_biased, unbias_biased, unbias_biased] <;> omega

/-- Unpacking at the head of a stream what a packing function wrote there gives the chunk, its bytes being present
(R130, R150, R159). -/
theorem unpackChunk_pack {c : Chunk} (hpack : c.packable = true) (tail : List Byte) {avail : Nat}
    (havail : c.pack.length ≤ avail) :
    unpackChunk ((c.pack ++ tail).getD 0 0) ((c.pack ++ tail).getD 1 0) ((c.pack ++ tail).getD 2 0)
      ((c.pack ++ tail).getD 3 0) avail = .ok c := by
  cases c with
  | run n =>
    obtain ⟨hlo, hhi⟩ : 1 ≤ n ∧ n ≤ 62 := of_decide_eq_true hpack
    have hbyte : (runByte (BitVec.ofNat 6 (n - 1))).toNat = 0xC0 + (n - 1) := by
      rw [runByte_toNat, BitVec.toNat_ofNat, Nat.mod_eq_of_lt (by omega)]
    refine (unpackChunk_run _ _ _ havail ?_ ?_).trans ?_
    · simp [Chunk.pack, hbyte]
    · simp [Chunk.pack, hbyte]; omega
    · simp [Chunk.pack, hbyte]; omega
  | index slot =>
    have hbyte := indexByte_toNat slot
    refine (unpackChunk_index _ _ _ havail ?_).trans ?_
    · simp [Chunk.pack, hbyte]; omega
    · simp [Chunk.pack]
  | diffSmall dr dg db =>
    have hbyte := dsByte_toNat (biased Config.dsBias 2 dr) (biased Config.dsBias 2 dg) (biased Config.dsBias 2 db)
    refine (unpackChunk_diffSmall _ _ _ havail ?_ ?_).trans ?_
    · simp [Chunk.pack, hbyte]; omega
    · simp [Chunk.pack, hbyte]; omega
    · simpa [Chunk.pack] using diffSmallFields_biased hpack
  | diffMed dg u v =>
    have hbyte := dmByte_toNat (biased Config.dmGBias 6 dg)
    have hpresent : ¬ avail < 2 := Nat.not_lt.2 havail
    refine (unpackChunk_diffMed _ _ _ (by omega) ?_ ?_).trans ?_
    · simp [Chunk.pack, dmBytes, hbyte]
    · simp [Chunk.pack, dmBytes, hbyte]; omega
    · simpa [Chunk.pack, dmBytes, hpresent] using diffMedFields_biased hpack
  | rgb p =>
    have hpresent : ¬ avail < 4 := Nat.not_lt.2 havail
    refine (unpackChunk_rgb _ _ _ (by omega) rfl).trans ?_
    simp [Chunk.pack, rgbBytes, hpresent]

/-! ### The chunk the encoder chooses (R171, R177 to R179) -/

/-- The chosen chunk can be packed: its fields are in range (R137). -/
theorem chooseChunk_packable (p prev : Pixel) (hit : Bool) : (chooseChunk p prev hit).packable = true := by
  cases hit with
  | true => rfl
  | false =>
    obtain ⟨hfits, e⟩ | ⟨-, hfits, e⟩ | ⟨-, -, e⟩ := chooseDelta_cases p prev <;> simp only [chooseChunk, e]
    · exact hfits
    · exact hfits
    · rfl

/-- The decoder reads a delta or literal chunk of p against PREV as p, and writes p to its slot (R192, R195, R196,
R198). -/
theorem decodeStep_chooseDelta (p : Pixel) (d : State) :
    decodeStep (chooseDelta p d.prev) d = (d.insert p).decoded (chooseDelta p d.prev).kind p 1 := by
  have hp := reconstruct_delta p d.prev
  obtain ⟨-, e⟩ | ⟨-, -, e⟩ | ⟨-, -, e⟩ := chooseDelta_cases p d.prev <;> rw [e]
  · simp only [decodeStep, decodeDelta, hp, Chunk.kind]
  · simp only [decodeStep, decodeDelta, sub_add_cancel, hp, Chunk.kind]
  · rfl

/-- The decoder reads the chunk that the encoder chooses for p as p: a hit in its cache as the entry, a miss as
`decodeStep_chooseDelta`; in both cases its cache is then as after a Probe of its own (R112, R194). -/
theorem decodeStep_chooseChunk (p : Pixel) (d : State) :
    decodeStep (chooseChunk p d.prev (d.probe p).1) d =
      (d.probe p).2.decoded (chooseChunk p d.prev (d.probe p).1).kind p 1 := by
  obtain ⟨hholds, e⟩ | ⟨-, e⟩ := d.probe_cases p <;> rw [e]
  · obtain ⟨hvalid, hpixel⟩ := (CacheEntry.holds_iff _ _).1 hholds
    simp only [chooseChunk, if_true, decodeStep, hvalid, hpixel, Chunk.kind]
  · exact decodeStep_chooseDelta p d

end Sys2Proof.Machine
end

section
/-! The host's DECODE_IMAGE, chunk by chunk (spec/30_encoding.md R81; spec/45_decoder_step.md R191, R200): which stream
bytes give which pixels, whatever stands behind them. -/

namespace Sys2Proof.Machine

open Sys2Proof.Claims

/-- A command that answers without an error gives the host its response and the state. -/
theorem hostCommand_of_exec {i : Instr} {s t : State} {r : Response} (hexec : exec i s = .next t)
    (hrsp : t.rsp = some r) (hok : r.err = .noError) : hostCommand i s = some (r, t) := by
  simp [hostCommand, hexec, hrsp, hok]

/-- `avail` of the presented bytes is their number, at most 4 (R74). -/
theorem availOf_presented (stream : List Byte) :
    availOf (BitVec.ofNat 3 (min stream.length Config.maxChunkBytes)) = min stream.length 4 := by
  simp only [availOf, BitVec.toNat_ofNat, Config.maxChunkBytes]
  omega

/-- A chunk is at most 4 bytes (R60). -/
theorem Chunk.pack_length_le (c : Chunk) : c.pack.length ≤ 4 := by
  rw [c.pack_length]
  cases c.kind <;> decide

/-- DEC_CHUNK at the head of a stream that begins with a packed chunk does that chunk's step (R191). -/
theorem exec_presentChunk_pack {d : State} (hd : ReadyIn .decode d) {c : Chunk} (hpack : c.packable = true)
    (tail : List Byte) : exec (presentChunk (c.pack ++ tail)) d = .next (decodeStep c d) := by
  have hpresent : c.pack.length ≤ availOf (BitVec.ofNat 3 (min (c.pack ++ tail).length Config.maxChunkBytes)) := by
    have := c.pack_length_le
    rw [availOf_presented, List.length_append]
    omega
  refine (exec_readyIn (i := presentChunk (c.pack ++ tail)) hd rfl rfl).trans ?_
  simp only [presentChunk, ruleOf, decChunkRule, unpackChunk_pack hpack tail hpresent]

/-! ### The response of DEC_CHUNK, as the host reads it (R76, R200) -/

theorem decR0_consumed (k : Kind) (count : Nat) : (fieldAt (decR0 k count) 3 3).toNat = k.length := by
  rw [decR0, fieldAt_or, fieldAt_or, place_apart _ _ _ _ (by decide), place_at _ _ (by decide),
    place_apart _ _ _ _ (by decide)]
  cases k <;> rfl

theorem decR0_count (k : Kind) {count : Nat} (h : count < 128) : (fieldAt (decR0 k count) 6 7).toNat = count := by
  rw [decR0, fieldAt_or, fieldAt_or, place_apart _ _ _ _ (by decide), place_apart _ _ _ _ (by decide),
    place_at _ _ (by decide)]
  simpa using Nat.mod_eq_of_lt h

theorem pixelField_place (p : Pixel) : pixelField (place 0 p.bits) = p := by
  simp [place]

/-- The bytes of one chunk at the head of any stream make the decoder give `count` copies of p and go to `d'`. -/
def ChunkDecodes (d : State) (bytes : List Byte) (count : Nat) (p : Pixel) (d' : State) : Prop :=
  ∀ tail, ∃ r, hostCommand (presentChunk (bytes ++ tail)) d = some (r, d') ∧ consumedOf r = bytes.length ∧
    countOf r = count ∧ pixelField r.r1 = p

/-- A packed chunk decodes as its decoder step says, when that step gives pixels. -/
theorem chunkDecodes_pack {d t : State} (hd : ReadyIn .decode d) {c : Chunk} (hpack : c.packable = true) {p : Pixel}
    {count : Nat} (hcount : count < 128) (hstep : decodeStep c d = t.decoded c.kind p count) :
    ChunkDecodes d c.pack count p (t.decoded c.kind p count) := by
  intro tail
  have hexec := exec_presentChunk_pack hd hpack tail
  rw [hstep] at hexec
  exact ⟨_, hostCommand_of_exec hexec rfl rfl, (decR0_consumed _ _).trans c.pack_length.symm, decR0_count _ hcount,
    pixelField_place p⟩

/-- Whole chunks, one after the other: the stream bytes make the decoder give the pixels and go from the first state
to the last. -/
inductive StreamDecodes : State → List Byte → List Pixel → State → Prop where
  | nil (d : State) : StreamDecodes d [] [] d
  | cons {d d' d'' : State} {bytes rest : List Byte} {count : Nat} {p : Pixel} {pixels : List Pixel}
      (hcount : 0 < count) (hchunk : ChunkDecodes d bytes count p d') (hrest : StreamDecodes d' rest pixels d'') :
      StreamDecodes d (bytes ++ rest) (List.replicate count p ++ pixels) d''

theorem StreamDecodes.single {d d' : State} {bytes : List Byte} {count : Nat} {p : Pixel} (hcount : 0 < count)
    (hchunk : ChunkDecodes d bytes count p d') : StreamDecodes d bytes (List.replicate count p) d' := by
  simpa using StreamDecodes.cons hcount hchunk (.nil d')

theorem StreamDecodes.append {d d' d'' : State} {bytes rest : List Byte} {pixels more : List Pixel}
    (h : StreamDecodes d bytes pixels d') (hrest : StreamDecodes d' rest more d'') :
    StreamDecodes d (bytes ++ rest) (pixels ++ more) d'' := by
  induction h with
  | nil d => exact hrest
  | cons hcount hchunk _ ih =>
    rw [List.append_assoc, List.append_assoc]
    exact .cons hcount hchunk (ih hrest)

/-- Asked for exactly the pixels that leading bytes of its stream give, the host gets them and reads no further. -/
theorem StreamDecodes.decodePixels {d d' : State} {bytes : List Byte} {pixels : List Pixel}
    (h : StreamDecodes d bytes pixels d') (tail : List Byte) {fuel : Nat} (hfuel : pixels.length ≤ fuel) :
    decodePixels fuel pixels.length (bytes ++ tail) d = some (pixels, d') := by
  induction h generalizing fuel with
  | nil d => simp [Machine.decodePixels]
  | @cons d d' d'' bytes rest count p pixels hcount hchunk _ ih =>
    obtain ⟨r, hcommand, hconsumed, hcountOf, hpixel⟩ := hchunk (rest ++ tail)
    rw [List.length_append, List.length_replicate] at hfuel ⊢
    obtain ⟨fuel, rfl⟩ : ∃ k, fuel = k + 1 := ⟨fuel - 1, by omega⟩
    obtain ⟨need, hneed⟩ : ∃ k, count + pixels.length = k + 1 := ⟨count + pixels.length - 1, by omega⟩
    have hleft : need + 1 - count = pixels.length := by omega
    have hfits : ¬ need + 1 < count := by omega
    rw [hneed, List.append_assoc, Machine.decodePixels, hcommand]
    simp [hcountOf, hconsumed, hpixel, hleft, hfits, ih (fuel := fuel) (by omega)]

end Sys2Proof.Machine
end

section
/-! The encoder and a decoder that follows it on its own stream (spec/41_cache.md R121; spec/44_encoder_step.md R172 to
R181; spec/45_decoder_step.md R202). Behind every chunk the two blocks agree in PREV and in their caches; the decoder
lacks the pixels that the encoder holds in its open run. -/

namespace Sys2Proof.Machine

open Sys2Proof.Claims

/-- A decoder that follows an encoder: both can go on, and they agree in PREV and in their caches. -/
structure State.Tracks (e d : State) : Prop where
  encoding : ReadyIn .encode e
  decoding : ReadyIn .decode d
  bounded : e.RunBounded
  prev : d.prev = e.prev
  cache : e.SameCache d

/-- The pixels counted into the open run, for which nothing is emitted yet (R173). -/
def State.openRun (e : State) : List Pixel := List.replicate e.run.toNat e.prev

/-- Probe hits in both caches or misses in both, and leaves them in agreement (R112, R121). -/
theorem State.SameCache.probe {s t : State} (h : s.SameCache t) (p : Pixel) :
    (s.probe p).1 = (t.probe p).1 ∧ (s.probe p).2.SameCache (t.probe p).2 := by
  refine ⟨?_, fun slot => ?_⟩
  · have hholds := h.holds_eq (pixHash p) p
    obtain ⟨hs, e⟩ | ⟨hs, e⟩ := s.probe_cases p
    · rw [e, State.probe_hit (hholds ▸ hs)]
    · rw [e, State.probe_miss (hholds ▸ hs)]
  · rw [s.cacheRead_probe, t.cacheRead_probe]
    split
    · exact ⟨rfl, fun _ => rfl⟩
    · exact h slot

/-- A command that answers with up to five bytes and no error gives them to the host. -/
theorem hostCommand_bytes {i : Instr} {s t : State} {bytes : List Byte} {r0 : Word}
    (hexec : exec i s = .next (t.respondBytes bytes r0)) (hlength : bytes.length ≤ 5) :
    ∃ r, hostCommand i s = some (r, t.respondBytes bytes r0) ∧ r.bytes = bytes :=
  ⟨_, hostCommand_of_exec hexec rfl (Response.emitAll_words bytes .zero).1, (Response.emitAll_bytes bytes hlength).1⟩

/-- ENC_PIXEL runs in ENCODE (R172). -/
theorem exec_encPixel {e : State} (h : ReadyIn .encode e) (p : Pixel) :
    exec (.encPixel p) e = .next (encodePixel p e) :=
  exec_readyIn h rfl rfl

/-- ENC_FLUSH runs in ENCODE (R181). -/
theorem exec_encFlush {e : State} (h : ReadyIn .encode e) :
    exec .encFlush e = .next ({ e with run := 0 }.respondBytes (closeRun e.run) 0) :=
  exec_readyIn h rfl rfl

/-- Closing a run takes one byte at most (R174, R181). -/
theorem closeRun_length_le (run : BitVec 6) : (closeRun run).length ≤ 1 := by
  unfold closeRun
  split <;> simp [Chunk.pack]

/-- A RUN chunk gives the decoder copies of PREV (R193). -/
theorem streamDecodes_run {d : State} (hd : ReadyIn .decode d) {n : Nat} (hlo : 1 ≤ n) (hhi : n ≤ 62) :
    StreamDecodes d (Chunk.run n).pack (List.replicate n d.prev) (d.decoded .run d.prev n) :=
  .single hlo (chunkDecodes_pack hd (c := .run n) (decide_eq_true ⟨hlo, hhi⟩) (by omega) rfl)

section

variable {e d : State}

/-- A RUN chunk leaves the decoder where it was. -/
theorem State.Tracks.decoded_run (h : e.Tracks d) (n : Nat) : e.Tracks (d.decoded .run d.prev n) :=
  ⟨h.encoding, h.decoding, h.bounded, h.prev, h.cache⟩

/-- The decoder follows whatever the encoder's open run is. -/
theorem State.Tracks.withRun (h : e.Tracks d) {run : BitVec 6} (hrun : run.toNat ≤ 61) (r : Response) :
    ({ e with run := run }.respond r).Tracks d :=
  ⟨h.encoding, h.decoding, hrun, h.prev, h.cache⟩

/-- The bytes that close the open run give the decoder its pixels (R174, R181). -/
theorem State.Tracks.closeRun (h : e.Tracks d) :
    ∃ d', StreamDecodes d (closeRun e.run) e.openRun d' ∧ e.Tracks d' := by
  by_cases hrun : e.run = 0
  · refine ⟨d, ?_, h⟩
    rw [Machine.closeRun, if_pos hrun, State.openRun, hrun]
    exact .nil d
  · have hpos : 1 ≤ e.run.toNat := Nat.pos_of_ne_zero fun h0 => hrun (BitVec.eq_of_toNat_eq h0)
    refine ⟨_, ?_, h.decoded_run e.run.toNat⟩
    rw [Machine.closeRun, if_neg hrun, State.openRun, ← h.prev]
    exact streamDecodes_run h.decoding hpos (h.bounded.trans (by decide))

/-- The chunk of a pixel that differs from PREV gives the decoder that pixel, and the two blocks agree again
(R175 to R180, R194 to R199). -/
theorem State.Tracks.encodeChange (h : e.Tracks d) (p : Pixel) :
    ∃ d', StreamDecodes d (chooseChunk p e.prev (e.probe p).1).pack [p] d' ∧ (encodeChange p e).Tracks d' := by
  obtain ⟨hhit, hcache⟩ := h.cache.probe p
  obtain ⟨hready, hmode⟩ := h.encoding
  obtain ⟨hready', hmode'⟩ := h.decoding
  have hstep := decodeStep_chooseChunk p d
  rw [← hhit, h.prev] at hstep
  refine ⟨_, .single one_pos (chunkDecodes_pack h.decoding (chooseChunk_packable _ _ _) (by decide) hstep), ?_⟩
  exact {
    encoding := ⟨(congrArg ErrReg.code (e.probe_err p)).trans hready, (e.probe_mode p).trans hmode⟩
    decoding := ⟨(congrArg ErrReg.code (d.probe_err p)).trans hready', (d.probe_mode p).trans hmode'⟩
    bounded := Nat.zero_le _
    prev := rfl
    cache := hcache }

/-- ENC_PIXEL of a repeat: the open run counts on and nothing is emitted, or it is emitted as it reaches 62 (R173). -/
theorem State.Tracks.encodeRepeat (h : e.Tracks d) :
    ∃ r e' out d', hostCommand (.encPixel e.prev) e = some (r, e') ∧ StreamDecodes d r.bytes out d' ∧
      e.openRun ++ [e.prev] = out ++ e'.openRun ∧ e'.Tracks d' := by
  have hexec := exec_encPixel h.encoding e.prev
  rw [encodePixel, if_pos (pixelsEqual_self _), Machine.encodeRepeat] at hexec
  by_cases hfull : e.run + 1 = BitVec.ofNat 6 Config.runMax
  · rw [if_pos hfull] at hexec
    obtain ⟨r, hcommand, hbytes⟩ := hostCommand_bytes hexec (by decide)
    have hrun : e.run.toNat = 61 := by
      have hfull' : e.run + 1 = 62#6 := hfull
      bv_omega
    have hstream := streamDecodes_run h.decoding (n := 62) (by decide) (by decide)
    refine ⟨r, _, _, _, hcommand, hbytes ▸ hstream, ?_, (h.decoded_run 62).withRun (Nat.zero_le _) _⟩
    rw [State.openRun, hrun, h.prev]
    rfl
  · rw [if_neg hfull] at hexec
    obtain ⟨r, hcommand, hbytes⟩ := hostCommand_bytes hexec (by decide)
    have hbounded := run_succ_le hfull h.bounded
    have hrun : (e.run + 1).toNat = e.run.toNat + 1 := by
      have hle : e.run.toNat ≤ 61 := h.bounded
      bv_omega
    refine ⟨r, _, [], d, hcommand, hbytes ▸ .nil d, ?_, h.withRun hbounded _⟩
    calc e.openRun ++ [e.prev]
      _ = List.replicate (e.run.toNat + 1) e.prev := List.replicate_succ'.symm
      _ = List.replicate (e.run + 1).toNat e.prev := by rw [hrun]

/-- One ENC_PIXEL: what it emits gives the decoder leading pixels of the open run and p, and the rest of them is the
open run it leaves (R172). -/
theorem State.Tracks.encPixel (h : e.Tracks d) (p : Pixel) :
    ∃ r e' out d', hostCommand (.encPixel p) e = some (r, e') ∧ StreamDecodes d r.bytes out d' ∧
      e.openRun ++ [p] = out ++ e'.openRun ∧ e'.Tracks d' := by
  by_cases hp : p = e.prev
  · subst hp
    exact h.encodeRepeat
  · have hexec := exec_encPixel h.encoding p
    rw [encodePixel, if_neg (by simp [pixelsEqual_of_ne hp])] at hexec
    obtain ⟨d', hclosed, htracks⟩ := h.closeRun
    obtain ⟨d'', hchunk, htracks'⟩ := htracks.encodeChange p
    have hlength := Nat.add_le_add (closeRun_length_le e.run) (chooseChunk p e.prev (e.probe p).1).pack_length_le
    rw [← List.length_append] at hlength
    obtain ⟨r, hcommand, hbytes⟩ := hostCommand_bytes hexec hlength
    exact ⟨r, _, _, d'', hcommand, hbytes ▸ hclosed.append hchunk, (List.append_nil _).symm, htracks'⟩

/-- Many ENC_PIXELs: what they emit gives the decoder all the pixels but those of the open run left at the end. -/
theorem State.Tracks.encodePixels (h : e.Tracks d) (pixels : List Pixel) :
    ∃ bytes e' out d', encodePixels pixels e = some (bytes, e') ∧ StreamDecodes d bytes out d' ∧
      e.openRun ++ pixels = out ++ e'.openRun ∧ e'.Tracks d' := by
  induction pixels generalizing e d with
  | nil => exact ⟨[], e, [], d, rfl, .nil d, List.append_nil _, h⟩
  | cons p ps ih =>
    obtain ⟨r, e', out, d', hcommand, hstream, hpixels, htracks⟩ := h.encPixel p
    obtain ⟨bytes, e'', out', d'', hrest, hstream', hpixels', htracks'⟩ := ih htracks
    refine ⟨r.bytes ++ bytes, e'', out ++ out', d'', ?_, hstream.append hstream', ?_, htracks'⟩
    · simp [Machine.encodePixels, hcommand, hrest]
    · calc e.openRun ++ p :: ps
        _ = (e.openRun ++ [p]) ++ ps := by simp
        _ = out ++ (e'.openRun ++ ps) := by rw [hpixels, List.append_assoc]
        _ = (out ++ out') ++ e''.openRun := by rw [hpixels', List.append_assoc]

end

/-! ### Whole images (R81, R202) -/

/-- The state START leaves (R210). -/
def State.started (s : State) (m : Mode) : State := (s.startImage m).respondWords 0 0

theorem hostCommand_start (s : State) {m : BitVec 2} {mode : Mode} (hm : modeOf m = some mode) :
    ∃ r, hostCommand (.start m) s = some (r, s.started mode) :=
  ⟨_, hostCommand_of_exec (exec_start s hm) rfl rfl⟩

/-- After START ENCODE and START DECODE two blocks agree, with no open run (R33, R210). -/
theorem State.started_tracks (s d : State) : (s.started .encode).Tracks (d.started .decode) where
  encoding := ⟨rfl, rfl⟩
  decoding := ⟨rfl, rfl⟩
  bounded := Nat.zero_le _
  prev := rfl
  cache slot := by simp [State.started]

/-- ENCODE_IMAGE completes, and its stream gives a decoder after START exactly the pixels (R202). -/
theorem encodeImage_decodes (pixels : List Pixel) (s d : State) :
    ∃ bytes s' d', encodeImage pixels s = some (bytes, s') ∧ StreamDecodes (d.started .decode) bytes pixels d' := by
  obtain ⟨r, hstart⟩ := hostCommand_start s (m := 1) (mode := .encode) rfl
  obtain ⟨bytes, e, out, d', hencode, hstream, hpixels, htracks⟩ := (s.started_tracks d).encodePixels pixels
  obtain ⟨d'', hclosed, -⟩ := htracks.closeRun
  obtain ⟨r', hflush, hbytes⟩ := hostCommand_bytes (exec_encFlush htracks.encoding)
    ((closeRun_length_le e.run).trans (by decide))
  refine ⟨bytes ++ r'.bytes, { e with run := 0 }.respondBytes (Machine.closeRun e.run) 0, d'', ?_, ?_⟩
  · simp only [encodeImage, hstart, hencode, hflush]
  · have hall : pixels = out ++ e.openRun := hpixels
    rw [hbytes, hall]
    exact hstream.append hclosed

/-- DECODE_IMAGE of a stream that begins with the chunks of the pixels gives the pixels (R81, R201). -/
theorem decodeImage_of_streamDecodes {d d' : State} {bytes : List Byte} {pixels : List Pixel}
    (h : StreamDecodes (d.started .decode) bytes pixels d') (tail : List Byte) :
    decodeImage pixels.length (bytes ++ tail) d = some (pixels, d') := by
  obtain ⟨r, hstart⟩ := hostCommand_start d (m := 2) (mode := .decode) rfl
  simp only [decodeImage, hstart, h.decodePixels tail le_rfl]

end Sys2Proof.Machine
end

section
/-! The host's files (spec/20_memory.md R44, R45; spec/70_reset_and_hazards.md R264, R265). -/

namespace Sys2Proof.Machine

/-- A big-endian integer of the header, read back (R44). -/
theorem streamWord_bigEndian (w : Word) :
    streamWord (fieldAt w 24 8) (fieldAt w 16 8) (fieldAt w 8 8) (fieldAt w 0 8) = w := by
  ext i hi
  simp [streamWord, fieldAt]
  grind

/-- A file with the host's header is the image that the bytes behind the header decode to, whatever MAGIC and
HDR_CHANNELS are (R265). -/
theorem decodeFile_headerBytes {width height : Word} {stream : List Byte} {pixels : List Pixel} {d d' : State}
    (h : decodeImage (width.toNat * height.toNat) stream d = some (pixels, d')) :
    decodeFile (headerBytes width height ++ stream) d = .image width height pixels := by
  simp [decodeFile, headerBytes, bigEndian, streamWord_bigEndian, h]

/-- A file of at least 14 bytes whose first four are not the magic is a FormatError (R232, R265). -/
theorem decodeFile_wrongMagic {m0 m1 m2 m3 : Byte} (hmagic : (m0, m1, m2, m3) ≠ Config.magic) {rest : List Byte}
    (hlength : 10 ≤ rest.length) (d : State) : decodeFile (m0 :: m1 :: m2 :: m3 :: rest) d = .formatError := by
  match rest, hlength with
  | _ :: _ :: _ :: _ :: _ :: _ :: _ :: _ :: _ :: _ :: _, _ => exact if_neg hmagic

/-- Settles O51: the stream that ENCODE_IMAGE gives decodes to the pixels behind any header and before any footer
(`encodeImage_decodes`, `decodeFile_headerBytes`); the magic is tested first. -/
theorem fileRoundTripsThroughTheHost : Obligations.FileRoundTripsThroughTheHost := by
  refine ⟨fun width height pixels s d hsize => ?_, fun m0 m1 m2 m3 rest d hmagic hlength =>
    decodeFile_wrongMagic hmagic hlength d⟩
  obtain ⟨bytes, s', d', hencode, hstream⟩ := encodeImage_decodes pixels s d
  refine ⟨headerBytes width height ++ bytes ++ footerBytes, s', by simp [encodeFile, hencode], ?_⟩
  rw [List.append_assoc]
  exact decodeFile_headerBytes (hsize ▸ decodeImage_of_streamDecodes hstream footerBytes)

end Sys2Proof.Machine
end

section
/-! What the encoder writes the decoder reads back, and what the decoder reads the encoder writes again
(spec/30_encoding.md R60 to R68, R73, R74): both directions for the command records and for the chunks. -/

namespace Sys2Proof

open Machine Claims

/-! ### Decoding what was encoded -/

/-- The round trip of each constructor (`Laws.RoundTrip`), for every instruction. -/
theorem decode_encode (i : Instr) (hwf : i.wellFormed = true) : decode (encode i) = .ok i := by
  cases i with
  | start m => exact Laws.RoundTrip.start m hwf
  | stateRead => exact Laws.RoundTrip.stateRead hwf
  | cacheRead slot => exact Laws.RoundTrip.cacheRead slot hwf
  | cacheClear => exact Laws.RoundTrip.cacheClear hwf
  | cacheProbe p => exact Laws.RoundTrip.cacheProbe p hwf
  | cacheInsert p => exact Laws.RoundTrip.cacheInsert p hwf
  | pixEq p q => exact Laws.RoundTrip.pixEq p q hwf
  | pixHash p => exact Laws.RoundTrip.pixHash p hwf
  | pixDelta p q => exact Laws.RoundTrip.pixDelta p q hwf
  | packRun n => exact Laws.RoundTrip.packRun n hwf
  | packIndex slot => exact Laws.RoundTrip.packIndex slot hwf
  | packDiffSmall dr dg db => exact Laws.RoundTrip.packDiffSmall dr dg db hwf
  | packDiffMed dg u v => exact Laws.RoundTrip.packDiffMed dg u v hwf
  | packRgb p => exact Laws.RoundTrip.packRgb p hwf
  | unpack s0 s1 s2 s3 avail => exact Laws.RoundTrip.unpack s0 s1 s2 s3 avail hwf
  | encPixel p => exact Laws.RoundTrip.encPixel p hwf
  | encFlush => exact Laws.RoundTrip.encFlush hwf
  | decChunk s0 s1 s2 s3 avail => exact Laws.RoundTrip.decChunk s0 s1 s2 s3 avail hwf
  | rgb p => exact Laws.RoundTrip.rgb p hwf
  | index slot => exact Laws.RoundTrip.index slot hwf
  | diffSmall rr gg bb => exact Laws.RoundTrip.diffSmall rr gg bb hwf
  | diffMed gggggg uuuu vvvv => exact Laws.RoundTrip.diffMed gggggg uuuu vvvv hwf
  | run nnnnnn => exact Laws.RoundTrip.run nnnnnn hwf

/-- Settles O43: `decode_encode`. -/
theorem decodeOfEncodeIsIdentity : Obligations.DecodeOfEncodeIsIdentity := decode_encode

/-- Settles O46, by running the decoder on the eight requests. -/
theorem writtenWordsDecode : Obligations.WrittenWordsDecode := by
  unfold Obligations.WrittenWordsDecode
  decide

/-! ### Operand words rebuilt from their fields (R74) -/

/-- The low bits of a word, placed back, are the word under the mask of those bits. -/
theorem fieldAt_low_setWidth (w : Word) (n : Nat) :
    (fieldAt w 0 n).setWidth 32 = w &&& BitVec.ofNat 32 (2 ^ n - 1) := by
  ext i hi
  simp [fieldAt, hi, ← BitVec.getLsbD_eq_getElem, BitVec.getLsbD_ofNat, Bool.and_comm]

/-- Bits 23:0, read as a pixel and placed back. -/
theorem pixelField_bits_setWidth (w : Word) : (pixelField w).bits.setWidth 32 = w &&& 0xFFFFFF := by
  have hbits : (pixelField w).bits = fieldAt w 0 24 := by
    ext i hi
    simp [pixelField, fieldAt, Pixel.bits]
    grind
  rw [hbits]
  exact fieldAt_low_setWidth w 24

/-- Bits 26:0, read as three deltas and placed back. -/
theorem deltaWord_fieldAt (w : Word) :
    deltaWord (fieldAt w 18 9) (fieldAt w 9 9) (fieldAt w 0 9) = w &&& 0x7FFFFFF := by
  refine Eq.trans ?_ (fieldAt_low_setWidth w 27)
  ext i hi
  simp [deltaWord, fieldAt]
  grind

/-- A whole word, read as four stream bytes and placed back. -/
theorem streamWord_fieldAt (w : Word) :
    streamWord (fieldAt w 24 8) (fieldAt w 16 8) (fieldAt w 8 8) (fieldAt w 0 8) = w &&& 0xFFFFFFFF := by
  refine Eq.trans ?_ (fieldAt_low_setWidth w 32)
  ext i hi
  simp [streamWord, fieldAt]
  grind

theorem command_congr {op : BitVec 5} {x x' y y' : Word} (hx : x = x') (hy : y = y') :
    HostRequest.command ⟨op, x, y⟩ = .command ⟨op, x', y'⟩ := by rw [hx, hy]

/-- What a record decodes to is well formed, and encodes to the record with its unlisted bits 0: one line for each row
of R73, in the order of the ops, START 3 being rejected. -/
theorem decodeCommand_canonical {c : Command} {i : Instr} (h : decodeCommand c = .ok i) :
    i.wellFormed = true ∧ encode i = .command ⟨c.op, c.a &&& listedA c.op, c.b &&& listedB c.op⟩ := by
  obtain ⟨op, a, b⟩ := c
  have zero (w : Word) : 0 = w &&& 0 := BitVec.and_zero.symm
  have low (n : Nat) := fieldAt_low_setWidth a n
  simp only [decodeCommand] at h
  split at h
  · split at h
    · cases h
    · next hmode =>
      cases h
      exact ⟨by simpa [Instr.wellFormed] using hmode, command_congr (low 2) (zero b)⟩
  all_goals cases h
  · exact ⟨rfl, command_congr (zero a) (zero b)⟩
  · exact ⟨rfl, command_congr (low 6) (zero b)⟩
  · exact ⟨rfl, command_congr (zero a) (zero b)⟩
  · exact ⟨rfl, command_congr (pixelField_bits_setWidth a) (zero b)⟩
  · exact ⟨rfl, command_congr (pixelField_bits_setWidth a) (zero b)⟩
  · exact ⟨rfl, command_congr (pixelField_bits_setWidth a) (pixelField_bits_setWidth b)⟩
  · exact ⟨rfl, command_congr (pixelField_bits_setWidth a) (zero b)⟩
  · exact ⟨rfl, command_congr (pixelField_bits_setWidth a) (pixelField_bits_setWidth b)⟩
  · exact ⟨rfl, command_congr (low 8) (zero b)⟩
  · exact ⟨rfl, command_congr (low 8) (zero b)⟩
  · exact ⟨rfl, command_congr (deltaWord_fieldAt a) (zero b)⟩
  · exact ⟨rfl, command_congr (deltaWord_fieldAt a) (zero b)⟩
  · exact ⟨rfl, command_congr (pixelField_bits_setWidth a) (zero b)⟩
  · exact ⟨rfl, command_congr (streamWord_fieldAt a) (fieldAt_low_setWidth b 3)⟩
  · exact ⟨rfl, command_congr (pixelField_bits_setWidth a) (zero b)⟩
  · exact ⟨rfl, command_congr (zero a) (zero b)⟩
  · exact ⟨rfl, command_congr (streamWord_fieldAt a) (fieldAt_low_setWidth b 3)⟩

/-! ### Chunk bytes rebuilt from their fields (R43, R60 to R65) -/

theorem tag_append_low6 {b : Byte} {tag : BitVec 2} (h : tagOf b = tag) : tag ++ low6 b = b := by
  rw [← h]
  exact (byte_of_tag_low6 b).symm

theorem dsByte_dsFields {b : Byte} (h : tagOf b = 1) :
    dsByte (dsFields b).1 (dsFields b).2.1 (dsFields b).2.2 = b := by
  have htag : b.toNat / 64 = 1 := (tagOf_eq_iff b 1).1 h
  obtain ⟨hr, hg, hb⟩ := dsFields_toNat b
  rw [BitVec.toNat_eq, dsByte_toNat, hr, hg, hb]
  omega

theorem nibbles_append (b : Byte) : (b.extractLsb' 4 4 ++ b.extractLsb' 0 4 : BitVec 8) = b := by
  rw [BitVec.toNat_eq, nibbles_toNat, high_nibble_toNat, low_nibble_toNat]
  omega

/-- The test that the last arm of the chunk decoder leaves out (R158). -/
theorem tagOf_eq_two {b : Byte} (h3 : tagOf b ≠ 3) (h0 : tagOf b ≠ 0) (h1 : tagOf b ≠ 1) : tagOf b = 2 := by
  revert h3 h0 h1
  generalize tagOf b = tag
  revert tag
  decide

/-- What the chunk decoder reads is well formed, and encodes to the leading bytes it was read from (R66). -/
theorem decodeChunk_canonical {b0 : Byte} {rest : List Byte} {i : Instr} (h : decodeChunk (b0 :: rest) = .ok i) :
    i.wellFormed = true ∧ ∃ more, encode i = .chunk (b0 :: more) ∧ more <+: rest := by
  simp only [decodeChunk] at h
  split at h
  · next hrgb =>
    split at h <;> cases h
    next r g b tail =>
    exact ⟨rfl, [r, g, b], congrArg (HostRequest.chunk [·, r, g, b]) hrgb.symm, tail, rfl⟩
  next hrgb =>
  split at h
  · next htag =>
    cases h
    have hbyte : runByte (low6 b0) = b0 := tag_append_low6 htag
    have hne : low6 b0 ≠ 62 := fun hv => hrgb (hbyte ▸ (runByte_eq_rgbTag _).2 hv)
    exact ⟨by simpa [Instr.wellFormed] using hne, [], congrArg (HostRequest.chunk [·]) hbyte, List.nil_prefix⟩
  next h3 =>
  split at h
  · next htag =>
    cases h
    exact ⟨rfl, [], congrArg (HostRequest.chunk [·]) (tag_append_low6 htag), List.nil_prefix⟩
  next h0 =>
  split at h
  · next htag =>
    cases h
    exact ⟨rfl, [], congrArg (HostRequest.chunk [·]) (dsByte_dsFields htag), List.nil_prefix⟩
  next h1 =>
  split at h <;> cases h
  next b1 tail =>
  exact ⟨rfl, [b1], congrArg₂ (HostRequest.chunk [·, ·]) (tag_append_low6 (tagOf_eq_two h3 h0 h1)) (nibbles_append b1),
    tail, rfl⟩

/-- Four bytes are enough for every chunk: none is cut short (R66, MAX_CHUNK_BYTES). -/
theorem decodeChunk_four (b0 b1 b2 b3 : Byte) (tail : List Byte) :
    ∃ i, decodeChunk (b0 :: b1 :: b2 :: b3 :: tail) = .ok i := by
  simp only [decodeChunk]
  repeat' split
  all_goals exact ⟨_, rfl⟩

/-- Settles O44: `decodeCommand_canonical` for the records, `decodeChunk_canonical` for the chunks. -/
theorem encodeOfDecodeIsCanonical : Obligations.EncodeOfDecodeIsCanonical := by
  refine ⟨fun c i hdecode => decodeCommand_canonical hdecode, fun bytes i hdecode => ?_⟩
  cases bytes with
  | nil => cases hdecode
  | cons b0 rest =>
    obtain ⟨hwf, more, hencode, tail, rfl⟩ := decodeChunk_canonical hdecode
    exact ⟨hwf, b0 :: more, tail, rfl, hencode⟩

/-! ### The first byte of a chunk (R66) -/

theorem indexByte_kind (v : SlotIdx) : (indexByte v).toNat ≠ 0xFE ∧ (indexByte v).toNat / 64 = 0 := by
  rw [indexByte_toNat]
  omega

theorem dsByte_kind (rr gg bb : BitVec 2) :
    (dsByte rr gg bb).toNat ≠ 0xFE ∧ (dsByte rr gg bb).toNat / 64 = 1 := by
  rw [dsByte_toNat]
  omega

theorem dmByte_kind (v : BitVec 6) : (2#2 ++ v : BitVec 8).toNat ≠ 0xFE ∧ (2#2 ++ v : BitVec 8).toNat / 64 = 2 := by
  rw [dmByte_toNat]
  omega

/-- A RUN byte is told from the RGB tag by its field, which is not 62 (R64). -/
theorem runByte_kind {v : BitVec 6} (hv : v ≠ 62) : (runByte v).toNat ≠ 0xFE ∧ (runByte v).toNat / 64 = 3 := by
  rw [runByte_toNat]
  bv_omega

/-- The first byte of an encoded chunk decides its kind and its length. -/
theorem encode_firstByte {i : Instr} {b0 : Byte} {more : List Byte} (hwf : i.wellFormed = true)
    (hencode : encode i = .chunk (b0 :: more)) :
    (b0 :: more).length = (if b0.toNat = 0xFE then 4 else if b0.toNat / 64 = 2 then 2 else 1) ∧
    ((∃ p, i = .rgb p) ↔ b0.toNat = 0xFE) ∧
    ((∃ slot, i = .index slot) ↔ b0.toNat ≠ 0xFE ∧ b0.toNat / 64 = 0) ∧
    ((∃ rr gg bb, i = .diffSmall rr gg bb) ↔ b0.toNat ≠ 0xFE ∧ b0.toNat / 64 = 1) ∧
    ((∃ g u v, i = .diffMed g u v) ↔ b0.toNat ≠ 0xFE ∧ b0.toNat / 64 = 2) ∧
    ((∃ n, i = .run n) ↔ b0.toNat ≠ 0xFE ∧ b0.toNat / 64 = 3) := by
  cases i with
  | rgb p =>
    cases hencode
    simp
  | index slot =>
    cases hencode
    simp [indexByte_kind slot]
  | diffSmall rr gg bb =>
    cases hencode
    simp [dsByte_kind rr gg bb]
  | diffMed g u v =>
    cases hencode
    simp [dmByte_kind g]
  | run n =>
    cases hencode
    have hn : n ≠ 62 := by simpa [Instr.wellFormed] using hwf
    simp [runByte_kind hn]
  | _ => cases hencode

/-- Settles O45: four bytes hold every chunk (`decodeChunk_four`), which encodes to its leading bytes
(`decodeChunk_canonical`), and their first one decides its kind (`encode_firstByte`). -/
theorem everyFirstByteDecodes : Obligations.EveryFirstByteDecodes := by
  intro b0 b1 b2 b3 tail
  obtain ⟨i, hdecode⟩ := decodeChunk_four b0 b1 b2 b3 tail
  obtain ⟨hwf, more, hencode, rest, happend⟩ := decodeChunk_canonical hdecode
  exact ⟨i, b0 :: more, rest, hdecode, hencode, congrArg (b0 :: ·) happend.symm, encode_firstByte hwf hencode⟩

end Sys2Proof
end

section
/-! DEC_CHUNK and the chunk rows (spec/45_decoder_step.md R191; assumption log, entry 3): the chunk decoder and Unpack
read the same chunk. -/

namespace Sys2Proof.Machine

open Sys2Proof.Claims

theorem availOf_eq_availNumber (avail : BitVec 3) : availOf avail = availNumber avail := by
  revert avail
  decide

/-- Unpack reads an encoded chunk at the head of the bytes present, and the instruction is the decoder step of what it
reads (R150, R191). -/
theorem unpackChunk_of_encode {i : Instr} {s0 s1 s2 s3 : Byte} {more : List Byte} {n : Nat}
    (hwf : i.wellFormed = true) (hencode : encode i = .chunk (s0 :: more)) (hprefix : more <+: [s1, s2, s3].take n) :
    ∃ c, unpackChunk s0 s1 s2 s3 (n + 1) = .ok c ∧
      ∀ s, exec i s = runCommand Op.decChunk true (decodeStep c) s := by
  have hpresent : more.length ≤ n := hprefix.length_le.trans (List.length_take_le _ _)
  have hbytes : more <+: [s1, s2, s3] := hprefix.trans (List.take_prefix _ _)
  have hone : 1 ≤ n + 1 := Nat.le_add_left 1 n
  cases i with
  | rgb p =>
    cases hencode
    have hn : 3 ≤ n := hpresent
    simp only [List.cons_prefix_cons] at hbytes
    obtain ⟨rfl, rfl, rfl, -⟩ := hbytes
    exact ⟨.rgb p, by rw [unpackChunk_rgb _ _ _ hone rfl, if_neg (by omega)], fun _ => rfl⟩
  | index slot =>
    cases hencode
    have hbyte := indexByte_toNat slot
    exact ⟨.index slot, by rw [unpackChunk_index _ _ _ hone (by omega), low6_indexByte], fun _ => rfl⟩
  | diffSmall rr gg bb =>
    cases hencode
    have hbyte := dsByte_toNat rr gg bb
    refine ⟨diffSmallFields rr gg bb, ?_, fun _ => rfl⟩
    rw [unpackChunk_diffSmall _ _ _ hone (by omega) (by omega), dsFields_dsByte]
  | diffMed g u v =>
    cases hencode
    have hn : 1 ≤ n := hpresent
    obtain ⟨rfl, -⟩ := List.cons_prefix_cons.1 hbytes
    have hbyte := dmByte_toNat g
    refine ⟨diffMedFields g u v, ?_, fun _ => rfl⟩
    rw [unpackChunk_diffMed _ _ _ hone (by omega) (by omega), if_neg (by omega), low6_dmByte, high_nibble, low_nibble]
  | run v =>
    cases hencode
    have hv : v ≠ 62 := by simpa [Instr.wellFormed] using hwf
    have hbyte := runByte_toNat v
    refine ⟨runFields v, ?_, fun _ => rfl⟩
    rw [unpackChunk_run _ _ _ hone (by omega) (runByte_kind hv).1, hbyte]
    simp [runFields]
  | _ => cases hencode

/-- Settles O33: what the chunk decoder reads, Unpack reads as well (`unpackChunk_of_encode`), and both rules stand
behind DEC_CHUNK's gate. -/
theorem decChunkExecutesTheChunk : Obligations.DecChunkExecutesTheChunk := by
  intro s0 s1 s2 s3 avail s i hdecode
  cases havail : availNumber avail with
  | zero =>
    rw [havail] at hdecode
    cases hdecode
  | succ n =>
    rw [havail, List.take_succ_cons] at hdecode
    obtain ⟨hwf, more, hencode, hprefix⟩ := decodeChunk_canonical hdecode
    obtain ⟨c, hunpack, hexec⟩ := unpackChunk_of_encode hwf hencode hprefix
    have hrule : decChunkRule s0 s1 s2 s3 avail = decodeStep c := by
      funext t
      simp only [decChunkRule, availOf_eq_availNumber, havail, hunpack]
    rw [exec_gate, hexec, ruleOf, hrule]
    rfl

end Sys2Proof.Machine
end

section
/-! Every instruction answers with a well-formed response (spec/30_encoding.md R75, spec/60_exceptions.md R237). -/

namespace Sys2Proof.Machine

open Sys2Proof.Claims

/-! ### The stream bytes of a response -/

/-- At most five stream bytes, and the places after them 0 (R75; assumption log, entry 13). -/
def Response.Padded (r : Response) : Prop :=
  r.nout.toNat ≤ 5 ∧ ∀ (k : Nat) (hk : k < 5), r.nout.toNat ≤ k → r.out[k] = 0

theorem Response.zero_padded : Response.zero.Padded :=
  ⟨by decide, fun k hk _ => by simp [Response.zero]⟩

theorem Response.emit_nout {r : Response} (h : r.nout.toNat < 5) (x : Byte) :
    (r.emit x).nout.toNat = r.nout.toNat + 1 := by
  simp only [Response.emit]
  bv_omega

/-- Emitting into a free place keeps the later places 0 (R15). -/
theorem Response.Padded.emit {r : Response} (h : r.Padded) (hroom : r.nout.toNat < 5) (x : Byte) :
    (r.emit x).Padded := by
  obtain ⟨-, hzero⟩ := h
  rw [Response.Padded, Response.emit_nout hroom]
  refine ⟨hroom, fun k hk hle => ?_⟩
  have hother : r.nout.toNat ≠ k := by omega
  simp only [Response.emit, Vector.getElem_setIfInBounds hk, if_neg hother]
  exact hzero k hk (by omega)

theorem Response.Padded.emitAll {r : Response} (h : r.Padded) (bytes : List Byte)
    (hroom : r.nout.toNat + bytes.length ≤ 5) : (r.emitAll bytes).Padded := by
  induction bytes generalizing r with
  | nil => exact h
  | cons x xs ih =>
    rw [List.length_cons] at hroom
    have hx : r.nout.toNat < 5 := by omega
    exact ih (h.emit hx x) (by rw [Response.emit_nout hx]; omega)

/-! ### The response a state holds -/

/-- The state holds a response as R75 and R237 form it: padded, and with an error the error alone. -/
def State.Answers (t : State) : Prop :=
  ∃ r, t.rsp = some r ∧ r.Padded ∧ (r.err = .noError → r.info = 0) ∧
    (r.err ≠ .noError → r = errorResponse r.err r.info)

theorem State.respondWords_answers (s : State) (r0 r1 : Word) : (s.respondWords r0 r1).Answers :=
  ⟨_, rfl, Response.zero_padded, fun _ => rfl, fun herr => absurd rfl herr⟩

theorem State.respondBytes_answers (s : State) {bytes : List Byte} (hlength : bytes.length ≤ 5) (r0 : Word) :
    (s.respondBytes bytes r0).Answers := by
  obtain ⟨herr, hinfo, -, -⟩ := Response.emitAll_words bytes Response.zero
  have hpadded := Response.zero_padded.emitAll bytes (by simpa [Response.zero] using hlength)
  exact ⟨_, rfl, hpadded, fun _ => hinfo, fun hne => absurd herr hne⟩

/-- A response that carries an error, whatever state it is given in. -/
theorem State.answers_error {t : State} {code : ErrCode} {info : Byte} (hcode : code ≠ .noError)
    (hrsp : t.rsp = some (Response.error code info)) : t.Answers :=
  ⟨_, hrsp, Response.zero_padded, fun hno => absurd hno hcode, fun _ => rfl⟩

theorem State.raise_answers (s : State) {code : ErrCode} (info : Byte) (hcode : code ≠ .noError) :
    (s.raise code info).Answers :=
  State.answers_error hcode rfl

theorem State.refuse_answers {s : State} (hf : s.err.code ≠ .noError) : s.refuse.Answers :=
  State.answers_error hf rfl

/-! ### The rules of the instructions -/

theorem packOrRaise_answers (op : BitVec 5) (fits : Bool) (c : Chunk) (s : State) :
    (packOrRaise op fits c s).Answers := by
  cases fits with
  | true => exact s.respondBytes_answers (c.pack_length_le.trans (by decide)) 0
  | false => exact s.raise_answers _ (by decide)

theorem unpackRule_answers (s0 s1 s2 s3 : Byte) (avail : BitVec 3) (s : State) :
    (unpackRule s0 s1 s2 s3 avail s).Answers := by
  unfold unpackRule
  split
  · exact s.raise_answers _ (by decide)
  · exact s.respondWords_answers _ _

theorem State.decoded_answers (s : State) (k : Kind) (p : Pixel) (count : Nat) : (s.decoded k p count).Answers :=
  State.respondWords_answers _ _ _

theorem decodeDelta_answers (k : Kind) (dr dg db : Int) (s : State) : (decodeDelta k dr dg db s).Answers := by
  unfold decodeDelta
  split
  · exact s.raise_answers _ (by decide)
  · exact State.decoded_answers _ _ _ _

theorem decodeStep_answers (c : Chunk) (s : State) : (decodeStep c s).Answers := by
  cases c with
  | run n => exact s.decoded_answers _ _ _
  | index slot =>
    simp only [decodeStep]
    split
    · exact s.decoded_answers _ _ _
    · exact s.raise_answers _ (by decide)
  | diffSmall dr dg db => exact decodeDelta_answers _ _ _ _ s
  | diffMed dg u v => exact decodeDelta_answers _ _ _ _ s
  | rgb p => exact State.decoded_answers _ _ _ _

theorem decChunkRule_answers (s0 s1 s2 s3 : Byte) (avail : BitVec 3) (s : State) :
    (decChunkRule s0 s1 s2 s3 avail s).Answers := by
  unfold decChunkRule
  split
  · exact s.raise_answers _ (by decide)
  · exact decodeStep_answers _ s

/-- ENC_PIXEL emits a RUN byte and a chunk of 4 bytes at most (R172, R183). -/
theorem encodePixel_answers (p : Pixel) (s : State) : (encodePixel p s).Answers := by
  unfold encodePixel Machine.encodeRepeat
  split
  · split
    · exact State.respondBytes_answers _ (by decide) _
    · exact State.respondBytes_answers _ (by decide) _
  · refine State.respondBytes_answers _ ?_ _
    rw [List.length_append]
    have hrun := closeRun_length_le s.run
    have hchunk := (chooseChunk p s.prev (s.probe p).1).pack_length_le
    omega

theorem encFlush_answers (s : State) : (ruleOf .encFlush s).Answers :=
  State.respondBytes_answers _ ((closeRun_length_le s.run).trans (by decide)) 0

/-- The rule of a legal instruction answers. -/
theorem ruleOf_answers {i : Instr} (hlegal : legalOf i = true) (s : State) : (ruleOf i s).Answers := by
  cases i with
  | start m =>
    obtain ⟨mode, h⟩ := Option.isSome_iff_exists.1 hlegal
    simp only [ruleOf, h]
    exact State.respondWords_answers _ _ _
  | packRun n => exact packOrRaise_answers ..
  | packIndex slot => exact packOrRaise_answers ..
  | packDiffSmall dr dg db => exact packOrRaise_answers ..
  | packDiffMed dg u v => exact packOrRaise_answers ..
  | packRgb p => exact packOrRaise_answers ..
  | unpack s0 s1 s2 s3 avail => exact unpackRule_answers ..
  | encPixel p => exact encodePixel_answers p s
  | encFlush => exact encFlush_answers s
  | decChunk s0 s1 s2 s3 avail => exact decChunkRule_answers ..
  | rgb p => exact decodeStep_answers (.rgb p) s
  | index slot => exact decodeStep_answers (.index slot) s
  | diffSmall rr gg bb => exact decodeStep_answers (diffSmallFields rr gg bb) s
  | diffMed gggggg uuuu vvvv => exact decodeStep_answers (diffMedFields gggggg uuuu vvvv) s
  | run nnnnnn => exact decodeStep_answers (runFields nnnnnn) s
  | _ => exact State.respondWords_answers _ _ _

/-- Every instruction answers: refused, with an error of the gate, or by its rule. -/
theorem exec_answers {i : Instr} {s t : State} (hexec : exec i s = .next t) : t.Answers := by
  obtain ⟨hf, -, rfl⟩ | ⟨-, hruns, rfl⟩ | ⟨-, -, rfl⟩ | ⟨-, -, -, rfl⟩ | ⟨-, hlegal, -, rfl⟩ :=
    exec_cases hexec
  · exact State.refuse_answers hf
  · exact ruleOf_answers (legalOf_of_runsWhileFaulted hruns) s
  · exact s.raise_answers _ (by decide)
  · exact s.raise_answers _ (by decide)
  · exact ruleOf_answers hlegal s

/-- Settles O41: `exec_answers`, for the next state that `exec_next` gives. -/
theorem everyCommandAnswers : Obligations.EveryCommandAnswers := by
  intro i s
  obtain ⟨t, hexec⟩ := exec_next i s
  obtain ⟨r, hrsp, ⟨hnout, hout⟩, hok, herror⟩ := exec_answers hexec
  exact ⟨t, r, hexec, hrsp, hnout, hout, hok, herror⟩

end Sys2Proof.Machine
end

section
/-! The pixel unit (spec/40_pixel.md R100 to R103): PIX_EQ, PIX_HASH and PIX_DELTA answer in every mode and write the
response only. Before them, what an obligation's `bitsOf` and `Reads` say in the decoder's fields. -/

namespace Sys2Proof.Machine

open Sys2Proof.Claims

/-! ### Operand fields (R74) -/

/-- The bits hi:lo of a word are the number of its field at `lo`. -/
theorem bitsOf_eq_fieldAt (w : Word) (hi lo : Nat) : bitsOf w hi lo = (fieldAt w lo (hi + 1 - lo)).toNat :=
  (fieldAt_toNat w lo (hi + 1 - lo)).symm

/-- The decoder's pixel operand is the pixel in bits 23:0. -/
theorem pixelField_eq_pixelOf (w : Word) : pixelField w = pixelOf w := by
  simp only [pixelOf, bitsOf_eq_fieldAt, BitVec.ofNat_toNat, pixelField]
  rfl

/-- `Reads` for a command that takes a pixel from `a`, from the decoder's row. -/
theorem reads_pixel {op : BitVec 5} {f : Pixel → Instr}
    (hrow : ∀ a b, decode (.command ⟨op, a, b⟩) = .ok (f (pixelField a))) : Reads op (fun a _ => f (pixelOf a)) :=
  fun a b => by rw [hrow, pixelField_eq_pixelOf]

/-- `Reads` for a command that takes a pixel from `a` and one from `b`, from the decoder's row. -/
theorem reads_pixels {op : BitVec 5} {f : Pixel → Pixel → Instr}
    (hrow : ∀ a b, decode (.command ⟨op, a, b⟩) = .ok (f (pixelField a) (pixelField b))) :
    Reads op (fun a b => f (pixelOf a) (pixelOf b)) :=
  fun a b => by rw [hrow, pixelField_eq_pixelOf, pixelField_eq_pixelOf]

/-! ### Commands accepted in every mode (R213) -/

/-- A legal command that requires no mode runs its rule in every mode when the block is not faulted. -/
theorem exec_anyMode {i : Instr} {s : State} (hready : Ready s) (hlegal : legalOf i = true)
    (hmode : requiredMode (opOf i) = none) : exec i s = .next (ruleOf i s) :=
  exec_ready hready hlegal fun m hm => by
    rw [hmode] at hm
    cases hm

theorem exec_pixEq {s : State} (hready : Ready s) (p q : Pixel) :
    exec (.pixEq p q) s = .next (answered s (words (place 0 (bit (pixelsEqual p q))) 0)) :=
  exec_anyMode hready rfl rfl

theorem exec_pixHash {s : State} (hready : Ready s) (p : Pixel) :
    exec (.pixHash p) s = .next (answered s (words (place 0 (pixHash p)) 0)) :=
  exec_anyMode hready rfl rfl

theorem exec_pixDelta {s : State} (hready : Ready s) (p q : Pixel) :
    exec (.pixDelta p q) s = .next (answered s
      (words (deltaResult (p.r.toNat - q.r.toNat) (p.g.toNat - q.g.toNat) (p.b.toNat - q.b.toNat)) 0)) :=
  exec_anyMode hready rfl rfl

/-! ### PIX_EQ (R100) -/

/-- The result word of a comparison is 1 or 0. -/
theorem place_bit (c : Bool) : place 0 (bit c) = if c = true then 1 else 0 := by
  cases c <;> rfl

theorem pixelsEqual_iff_channels (p q : Pixel) : pixelsEqual p q = true ↔ p.r = q.r ∧ p.g = q.g ∧ p.b = q.b := by
  rw [pixelsEqual_iff, Pixel.mk.injEq]

/-- Settles O14: the comparison is channel by channel (`pixelsEqual_iff_channels`), and its bit is the result word. -/
theorem pixEqComparesChannels : Obligations.PixEqComparesChannels := by
  refine ⟨reads_pixels fun _ _ => rfl, fun p q s hready => ?_⟩
  simp only [exec_pixEq hready, place_bit, pixelsEqual_iff_channels]

/-! ### PIX_HASH (R101, R102) -/

/-- The result word of PIX_HASH is the slot number. -/
theorem place_pixHash_toNat (p : Pixel) :
    (place 0 (pixHash p)).toNat = (3 * p.r.toNat + 5 * p.g.toNat + 7 * p.b.toNat) % 64 := by
  rw [place_toNat 0 (pixHash p) (by decide), pixHash_toNat, pow_zero, mul_one]

/-- The hash is the sum of the channels' low six bits in 6-bit arithmetic (R102). -/
theorem pixHash_eq_sixBitSum (p : Pixel) :
    pixHash p = 3 * p.r.setWidth 6 + 5 * p.g.setWidth 6 + 7 * p.b.setWidth 6 := by
  rw [BitVec.toNat_eq, pixHash_toNat]
  simp [BitVec.toNat_add, BitVec.toNat_mul, Nat.add_mod, Nat.mul_mod]

/-- Settles O15: `place_pixHash_toNat`, and the sum mod 64 fits the result word. -/
theorem pixHashIsWeightedSum : Obligations.PixHashIsWeightedSum := by
  refine ⟨reads_pixel fun _ _ => rfl, fun p s hready => ?_⟩
  rw [exec_pixHash hready, ← place_pixHash_toNat, BitVec.ofNat_toNat, BitVec.setWidth_eq]

/-- Settles O16: the sum mod 64 is that of the channels mod 64, and the 6-bit sum is the hash
(`pixHash_eq_sixBitSum`). -/
theorem pixHashNeedsSixBits : Obligations.PixHashNeedsSixBits := by
  intro p s hready
  refine ⟨_, _, exec_pixHash hready p, rfl, ?_, ?_⟩
  · calc (place 0 (pixHash p)).toNat
        = (3 * p.r.toNat + 5 * p.g.toNat + 7 * p.b.toNat) % 64 := place_pixHash_toNat p
      _ = (3 * (p.r.toNat % 64) + 5 * (p.g.toNat % 64) + 7 * (p.b.toNat % 64)) % 64 := by omega
  · rw [← pixHash_eq_sixBitSum]
    exact BitVec.shiftLeft_zero _

/-! ### PIX_DELTA (R103) -/

/-- A delta in −256..255 is read back from its 9-bit field (R12, R77). -/
theorem signed9_tc9 {x : Int} (hlo : -256 ≤ x) (hhi : x ≤ 255) : signed9 (tc9 x).toNat = x := by
  simp only [signed9, tc9, BitVec.toNat_ofInt]
  split <;> omega

/-- The result word of three deltas has them in its fields. -/
theorem deltaResult_hasDeltas {x y z : Int} (hx : -256 ≤ x ∧ x ≤ 255) (hy : -256 ≤ y ∧ y ≤ 255)
    (hz : -256 ≤ z ∧ z ≤ 255) : HasDeltas (deltaResult x y z) x y z := by
  simp only [HasDeltas, deltaResult, bitsOf_eq_fieldAt, Nat.reduceAdd, Nat.reduceSub, deltaWord_hi, deltaWord_mid,
    deltaWord_lo, deltaWord_top]
  exact ⟨signed9_tc9 hx.1 hx.2, signed9_tc9 hy.1 hy.2, signed9_tc9 hz.1 hz.2, rfl⟩

/-- The difference of two channels lies in −255..255 (R103). -/
theorem channel_sub_bounds (x y : Byte) :
    -256 ≤ (x.toNat : Int) - y.toNat ∧ (x.toNat : Int) - y.toNat ≤ 255 := by
  have hx := x.isLt
  have hy := y.isLt
  omega

/-- Settles O17: the differences fit nine bits (`channel_sub_bounds`), so their fields hold them unwrapped
(`deltaResult_hasDeltas`). -/
theorem pixDeltaDoesNotWrap : Obligations.PixDeltaDoesNotWrap := by
  refine ⟨reads_pixels fun _ _ => rfl, fun p q s hready => ⟨_, exec_pixDelta hready p q, ?_⟩⟩
  exact deltaResult_hasDeltas (channel_sub_bounds p.r q.r) (channel_sub_bounds p.g q.g) (channel_sub_bounds p.b q.b)

end Sys2Proof.Machine
end

section
/-! The slot invariant on its own (spec/41_cache.md R120): no other part of the invariant is needed to keep it. -/

namespace Sys2Proof.Machine

/-- Every effect keeps the slots hashed: what writes an entry writes a pixel to its own slot, or empties it. -/
theorem Effect.keeps_slotsHashed {i : Instr} {s t : State} (heffect : Effect i s t) (h : s.SlotsHashed) :
    t.SlotsHashed := by
  cases heffect with
  | start m mode r => exact (s.startImage_inv mode).slots
  | clear r => exact .cacheClear s
  | probe p r => exact h.probe p
  | insert p r => exact h.insert p
  | encodeChange p r => exact h.probe p
  | decodeNew p r hi => exact h.insert p
  | _ => exact h

/-- Behind the gate a rule that leaves an entry as it is still does: refusals and errors write no entry. -/
theorem cacheRead_gate {s : State} {slot : SlotIdx} {body : State → State} (op : BitVec 5) (legal : Bool)
    (hbody : (body s).cacheRead slot = s.cacheRead slot) :
    (gate op legal body s).cacheRead slot = s.cacheRead slot := by
  obtain ⟨-, -, e⟩ | ⟨-, -, e⟩ | ⟨-, -, e⟩ | ⟨-, -, -, e⟩ | ⟨-, -, -, e⟩ := gate_cases op legal body s <;>
    simp [e, hbody]

/-- A rejected request but the host's reset leaves every entry as it is. -/
theorem State.cacheRead_takeRejected (s : State) {e : DecodeReject} (hreset : e ≠ .hostReset) (slot : SlotIdx) :
    (s.takeRejected e).cacheRead slot = s.cacheRead slot := by
  cases e with
  | hostReset => exact absurd rfl hreset
  | unassignedOp op => exact cacheRead_gate _ _ rfl
  | reservedStartMode => exact cacheRead_gate _ _ rfl
  | truncatedChunk avail => exact cacheRead_gate _ _ rfl

/-- A request the decoder rejects keeps the slots hashed. -/
theorem State.SlotsHashed.takeRejected {s : State} (h : s.SlotsHashed) (e : DecodeReject) :
    (s.takeRejected e).SlotsHashed := by
  by_cases hreset : e = .hostReset
  · subst hreset
    exact s.hostReset_inv.slots
  · intro slot
    rw [s.cacheRead_takeRejected hreset]
    exact h slot

/-- Every step keeps the slots hashed. -/
theorem step_keeps_slotsHashed {s t : State} (h : s.SlotsHashed) (hstep : step s = .next t) : t.SlotsHashed := by
  cases hpending : s.pending with
  | nil =>
    rw [step_empty hpending] at hstep
    cases hstep
    exact h
  | cons request rest =>
    have hrest : State.SlotsHashed { s with pending := rest } := h
    cases hdecode : decode request with
    | ok i =>
      rw [step_decoded hpending hdecode] at hstep
      exact (exec_effect hstep).keeps_slotsHashed hrest
    | error e =>
      rw [step_rejected hpending hdecode] at hstep
      cases hstep
      exact hrest.takeRejected e

/-- Inserting the pixel of a genuine, hashed slot finds that slot and the entry there already (R120). -/
theorem State.SlotsHashed.cacheRead_insert_genuine {s : State} (h : s.SlotsHashed) {slot : SlotIdx}
    (hvalid : (s.cacheRead slot).valid = true) (slot' : SlotIdx) :
    (s.insert (s.cacheRead slot).pixel).cacheRead slot' = s.cacheRead slot' := by
  rw [s.cacheRead_insert, h slot hvalid]
  split
  · next hslot =>
    rw [hslot, ← hvalid]
  · rfl

/-- Settles O6: `step_keeps_slotsHashed`, from the fresh states that reset and START leave. -/
theorem slotInvariantIsKept : Obligations.SlotInvariantIsKept := by
  refine ⟨State.reset_inv.slots, fun s t m hm hexec => ?_, fun _ _ h hstep => step_keeps_slotsHashed h hstep,
    fun _ _ h hvalid => h.cacheRead_insert_genuine hvalid⟩
  obtain ⟨mode, hmode⟩ := modeOf_of_ne_three hm
  rw [exec_start s hmode] at hexec
  cases hexec
  exact (s.startImage_inv mode).slots

end Sys2Proof.Machine
end

section
/-! The direct cache commands CACHE_READ, CACHE_CLEAR, CACHE_PROBE and CACHE_INSERT (spec/41_cache.md R116 to R119),
and the eviction of a slot's occupant (R114). -/

namespace Sys2Proof.Machine

open Sys2Proof.Claims

/-! ### Slots and result words in the numbers of the claims -/

/-- The slot of a pixel is its hash (R101, R110). -/
theorem slotOf_eq_pixHash (p : Pixel) : slotOf p = pixHash p := rfl

/-- A value at bit 0 of a result word is its number (R76). -/
theorem place_zero {n : Nat} (v : BitVec n) : place 0 v = BitVec.ofNat 32 v.toNat := by
  rw [place, BitVec.shiftLeft_zero, BitVec.ofNat_toNat]

/-- A pixel in a result word is the number of its 24-bit field (R13, R76). -/
theorem place_pixel (p : Pixel) : place 0 p.bits = BitVec.ofNat 32 (pixelNumber p) := by
  rw [place_zero, pixel_bits_toNat, pixelNumber]

/-- A result bit right above a value adds 2^n to it when it is set (R76). -/
theorem place_zero_or_bit {n : Nat} (v : BitVec n) (hn : n < 32) (c : Bool) :
    place 0 v ||| place n (bit c) = BitVec.ofNat 32 (if c then 2 ^ n + v.toNat else v.toNat) := by
  cases c with
  | false => simp [bit, place]
  | true =>
    have hv : (place 0 v).toNat = v.toNat := by rw [place_toNat _ _ (by omega), pow_zero, mul_one]
    have hbit : (place n (bit true)).toNat = 2 ^ n := by
      rw [place_toNat _ _ hn]
      exact one_mul _
    have hsum := or_toNat (place 0 v) (place n (bit true)) n (hv ▸ v.isLt) (hbit ▸ dvd_rfl)
    calc place 0 v ||| place n (bit true)
      _ = BitVec.ofNat 32 (place 0 v ||| place n (bit true)).toNat := by rw [BitVec.ofNat_toNat, BitVec.setWidth_eq]
      _ = BitVec.ofNat 32 (2 ^ n + v.toNat) := by rw [hsum, hv, hbit, add_comm]

/-- The answer of CACHE_READ: the valid bit counts 2^24, above the pixel of a genuine slot (R76, R116). -/
theorem cacheReadR0_eq (e : CacheEntry) :
    cacheReadR0 e = BitVec.ofNat 32 (if e.valid then 0x1000000 + pixelNumber e.pixel else 0) := by
  rw [cacheReadR0, BitVec.or_comm, place_zero_or_bit _ (by decide)]
  cases e.valid with
  | false => rfl
  | true => simp only [if_true, pixel_bits_toNat, pixelNumber, Nat.reducePow]

/-! ### The commands behind their gate -/

/-- STATE_READ, CACHE_READ and a legal START run their rule in every mode, faulted or not (R213, R214). -/
theorem exec_alwaysRuns {i : Instr} (s : State) (hruns : runsWhileFaulted (opOf i) (legalOf i) = true) :
    exec i s = .next (ruleOf i s) := by
  by_cases hf : s.err.code = .noError
  · exact exec_anyMode hf (legalOf_of_runsWhileFaulted hruns) (requiredMode_of_runsWhileFaulted hruns)
  · rw [exec_gate, gate_runs_faulted hf hruns]

/-- A legal command in a mode it does not accept raises ModeError (R213). -/
theorem exec_wrongMode {i : Instr} {s : State} {mode : Mode} (hready : Ready s) (hlegal : legalOf i = true)
    (hrequired : requiredMode (opOf i) = some mode) (hmode : s.mode ≠ mode) :
    exec i s = .next (raised s .modeError ((opOf i).setWidth 8)) := by
  rw [exec_gate, hlegal, gate_wrongMode hready hrequired hmode]
  rfl

/-- CACHE_READ answers in every state (R116). -/
theorem exec_cacheRead (slot : SlotIdx) (s : State) :
    exec (.cacheRead slot) s = .next (answered s (words (cacheReadR0 (s.cacheRead slot)) 0)) :=
  exec_alwaysRuns s rfl

/-- CACHE_INSERT runs in IDLE (R119). -/
theorem exec_cacheInsert {s : State} (h : ReadyIn .idle s) (p : Pixel) :
    exec (.cacheInsert p) s = .next ((s.insert p).respondWords (BitVec.ofNat 32 (slotOf p).toNat) 0) := by
  rw [slotOf_eq_pixHash, ← place_zero]
  exact exec_readyIn h rfl rfl

/-- CACHE_PROBE runs in IDLE (R118). -/
theorem exec_cacheProbe {s : State} (h : ReadyIn .idle s) (p : Pixel) :
    exec (.cacheProbe p) s = .next ((s.probe p).2.respondWords (BitVec.ofNat 32
      (if (s.probe p).1 then 64 + (slotOf p).toNat else (slotOf p).toNat)) 0) := by
  have hr0 : place 0 (pixHash p) ||| place 6 (bit (s.probe p).1) =
      BitVec.ofNat 32 (if (s.probe p).1 then 64 + (slotOf p).toNat else (slotOf p).toNat) :=
    place_zero_or_bit (pixHash p) (by decide) _
  rw [← hr0]
  exact exec_readyIn h rfl rfl

/-- An entry holds p exactly when it is the genuine entry p (R111, R112). -/
theorem CacheEntry.holds_iff_eq (e : CacheEntry) (p : Pixel) : e.holds p = true ↔ e = ⟨true, p⟩ := by
  rw [e.holds_iff, CacheEntry.mk.injEq]

/-- A CACHE_PROBE that finds its pixel writes nothing (R112, R118). -/
theorem exec_cacheProbe_hit {s : State} (h : ReadyIn .idle s) {p : Pixel} (hhit : s.cacheRead (slotOf p) = ⟨true, p⟩) :
    exec (.cacheProbe p) s = .next (answered s (words (BitVec.ofNat 32 (64 + (slotOf p).toNat)) 0)) := by
  rw [exec_cacheProbe h, State.probe_hit ((CacheEntry.holds_iff_eq _ p).2 hhit)]
  rfl

/-- A CACHE_PROBE that misses inserts its pixel (R112, R118). -/
theorem exec_cacheProbe_miss {s : State} (h : ReadyIn .idle s) {p : Pixel}
    (hmiss : s.cacheRead (slotOf p) ≠ ⟨true, p⟩) :
    exec (.cacheProbe p) s = .next ((s.insert p).respondWords (BitVec.ofNat 32 (slotOf p).toNat) 0) := by
  have hholds := mt (CacheEntry.holds_iff_eq (s.cacheRead (pixHash p)) p).1 hmiss
  rw [exec_cacheProbe h, State.probe_miss (Bool.eq_false_of_not_eq_true hholds)]
  rfl

/-! ### What a write does to the slots (R112 to R114) -/

/-- A cache that reads as after a write of p to its slot is one where just that slot is written. -/
theorem slotWritten_of_cacheRead {s t : State} {p : Pixel}
    (hread : ∀ slot, t.cacheRead slot = if slot = pixHash p then ⟨true, p⟩ else s.cacheRead slot) :
    SlotWritten s t p :=
  ⟨(hread _).trans (if_pos rfl), fun slot hslot => (hread slot).trans (if_neg hslot)⟩

theorem slotWritten_insert (s : State) (p : Pixel) (r0 r1 : Word) :
    SlotWritten s ((s.insert p).respondWords r0 r1) p :=
  slotWritten_of_cacheRead (s.cacheRead_insert p)

theorem slotWritten_probe (s : State) (p : Pixel) (r0 r1 : Word) :
    SlotWritten s ((s.probe p).2.respondWords r0 r1) p :=
  slotWritten_of_cacheRead (s.cacheRead_probe p)

/-- A CACHE_PROBE of another pixel of the slot that p occupies misses and evicts p (R114). -/
theorem exec_cacheProbe_evicts {t : State} {p q : Pixel} (hheld : t.cacheRead (slotOf p) = ⟨true, p⟩)
    (h : ReadyIn .idle t) (hslot : slotOf p = slotOf q) (hne : p ≠ q) :
    ∃ u, exec (.cacheProbe q) t = .next u ∧ SlotWritten t u q ∧
      u.rsp = some (words (BitVec.ofNat 32 (slotOf q).toNat) 0) := by
  have hmiss : t.cacheRead (slotOf q) ≠ ⟨true, q⟩ := by
    rw [← hslot, hheld]
    exact fun e => hne (congrArg CacheEntry.pixel e)
  exact ⟨_, exec_cacheProbe_miss h hmiss, slotWritten_insert t q _ _, rfl⟩

/-! ### The obligations -/

/-- Settles O9: CACHE_READ runs in every state (`exec_cacheRead`), and its result word is `cacheReadR0_eq`. -/
theorem cacheReadReturnsSlot : Obligations.CacheReadReturnsSlot := by
  refine ⟨fun a b => ?_, fun slot s => ?_⟩
  · simp only [bitsOf_eq_fieldAt, BitVec.ofNat_toNat, BitVec.setWidth_eq]
    rfl
  · rw [exec_cacheRead, cacheReadR0_eq]

/-- Settles O10: `exec_cacheClear` in IDLE, ModeError elsewhere. -/
theorem cacheClearEmptiesEverySlot : Obligations.CacheClearEmptiesEverySlot :=
  ⟨fun _ _ => rfl,
    fun s h => ⟨_, exec_cacheClear h, s.cacheRead_cacheClear, rfl, rfl, rfl, rfl, rfl, rfl⟩,
    fun _ hready hmode => exec_wrongMode hready rfl rfl hmode⟩

/-- Settles O11: a hit by `exec_cacheProbe_hit`, a miss by `exec_cacheProbe_miss`, ModeError outside IDLE. -/
theorem cacheProbeHitsOrFills : Obligations.CacheProbeHitsOrFills := by
  refine ⟨reads_pixel fun _ _ => rfl, fun p s h => ⟨exec_cacheProbe_hit h, fun hmiss => ?_⟩,
    fun p s hready hmode => exec_wrongMode hready rfl rfl hmode⟩
  exact ⟨_, exec_cacheProbe_miss h hmiss, slotWritten_insert s p _ _, rfl, rfl, rfl, rfl, rfl, rfl⟩

/-- Settles O12: the write by `exec_cacheInsert`, ModeError outside IDLE. -/
theorem cacheInsertWritesItsSlot : Obligations.CacheInsertWritesItsSlot :=
  ⟨reads_pixel fun _ _ => rfl,
    fun p s h => ⟨_, exec_cacheInsert h p, slotWritten_insert s p _ _, rfl, rfl, rfl, rfl, rfl, rfl⟩,
    fun _ _ hready hmode => exec_wrongMode hready rfl rfl hmode⟩

/-- DEC_CHUNK of an RGB chunk writes its pixel to the cache (R192). -/
theorem exec_decChunk_rgb {s : State} (h : ReadyIn .decode s) (p : Pixel) :
    exec (.decChunk 0xFE p.r p.g p.b 4) s = .next ((s.insert p).decoded .rgb p 1) :=
  exec_presentChunk_pack h (c := .rgb p) rfl []

/-- DEC_CHUNK of the INDEX chunk of a genuine slot gives its pixel (R194). -/
theorem exec_decChunk_index {s : State} {slot : SlotIdx} {p : Pixel} (hheld : s.cacheRead slot = ⟨true, p⟩)
    (h : ReadyIn .decode s) :
    exec (.decChunk (BitVec.ofNat 8 slot.toNat) 0 0 0 1) s = .next (s.decoded .index p 1) := by
  rw [← indexByte_toNat, BitVec.ofNat_toNat, BitVec.setWidth_eq]
  refine (exec_presentChunk_pack h (c := .index slot) rfl []).trans ?_
  simp only [decodeStep, hheld, if_true]

/-- Settles O13: after a write of p its slot holds p, so a Probe of another pixel of the slot evicts it
(`exec_cacheProbe_evicts`), and the INDEX chunk of the slot gives p (`exec_decChunk_index`). -/
theorem collisionEvicts : Obligations.CollisionEvicts := by
  refine ⟨fun p q s h hslot hne => ?_, fun p q s h hslot hne => ?_, fun p s h => ?_⟩
  · have hwritten := slotWritten_insert s p (BitVec.ofNat 32 (slotOf p).toNat) 0
    obtain ⟨u, hexec, hevicted⟩ := exec_cacheProbe_evicts hwritten.1 h hslot hne
    exact ⟨_, u, exec_cacheInsert h p, hwritten, rfl, hexec, hevicted⟩
  · have hwritten := slotWritten_probe s p (BitVec.ofNat 32
      (if (s.probe p).1 then 64 + (slotOf p).toNat else (slotOf p).toNat)) 0
    have hready : ReadyIn .idle (s.probe p).2 := by simpa [ReadyIn] using h
    obtain ⟨u, hexec, hevicted⟩ := exec_cacheProbe_evicts hwritten.1 hready hslot hne
    exact ⟨_, u, exec_cacheProbe h p, hwritten, hexec, hevicted⟩
  · have hwritten : SlotWritten s ((s.insert p).decoded .rgb p 1) p := slotWritten_of_cacheRead (s.cacheRead_insert p)
    refine ⟨_, _, exec_decChunk_rgb h p, hwritten, exec_decChunk_index hwritten.1 h, ?_⟩
    rw [State.decoded_rsp, place_pixel]
    rfl

end Sys2Proof.Machine
end

section
/-! Cache parity wherever an image is cut (spec/41_cache.md R121). The decoder has produced the pixels before the cut
only where a chunk ends; there the encoder's open run, if it has one, is just what the next RUN chunk gave. -/

namespace Sys2Proof.Machine

open Sys2Proof.Claims

/-! ### DECODE_IMAGE, followed along its stream (R81) -/

/-- With no pixel left to produce DECODE_IMAGE ends, whatever the stream holds. -/
@[simp] theorem decodePixels_zero (fuel : Nat) (stream : List Byte) (s : State) :
    decodePixels fuel 0 stream s = some ([], s) := by
  cases fuel <;> rfl

/-- Where DECODE_IMAGE completes on a stream that begins with one chunk, the chunk does not overshoot (R269), and it
completes on the rest of the stream with the pixels that are left. -/
theorem ChunkDecodes.decodePixels_rest {d d' u : State} {bytes tail : List Byte} {count need fuel : Nat} {p : Pixel}
    {out : List Pixel} (hchunk : ChunkDecodes d bytes count p d') (hneed : need ≠ 0)
    (hdecode : decodePixels fuel need (bytes ++ tail) d = some (out, u)) :
    count ≤ need ∧ ∃ fuel' out', decodePixels fuel' (need - count) tail d' = some (out', u) ∧
      out = List.replicate count p ++ out' := by
  obtain ⟨r, hcommand, hconsumed, rfl, rfl⟩ := hchunk tail
  obtain ⟨need, rfl⟩ := Nat.exists_eq_succ_of_ne_zero hneed
  cases fuel with
  | zero => simp [decodePixels] at hdecode
  | succ fuel =>
    simp only [decodePixels, hcommand, hconsumed, List.drop_left] at hdecode
    split at hdecode
    · cases hdecode
    · next hfits =>
      split at hdecode
      · cases hdecode
      · next hrest =>
        cases hdecode
        exact ⟨Nat.le_of_not_lt hfits, _, _, hrest, rfl⟩

/-- Where DECODE_IMAGE completes on a stream that begins with whole chunks, it does so by them and, for the pixels that
are left, by the rest of the stream. -/
theorem StreamDecodes.decodePixels_rest {d d' u : State} {bytes tail : List Byte} {pixels out : List Pixel}
    {left fuel : Nat} (h : StreamDecodes d bytes pixels d')
    (hdecode : Machine.decodePixels fuel (pixels.length + left) (bytes ++ tail) d = some (out, u)) :
    ∃ fuel' out', Machine.decodePixels fuel' left tail d' = some (out', u) ∧ out = pixels ++ out' := by
  induction h generalizing fuel out with
  | nil d => exact ⟨fuel, out, by simpa using hdecode, rfl⟩
  | @cons d d' d'' bytes rest count p pixels hcount hchunk _ ih =>
    rw [List.append_assoc, List.length_append, List.length_replicate] at hdecode
    obtain ⟨-, fuel', out', hrest, rfl⟩ := hchunk.decodePixels_rest (by omega) hdecode
    rw [show count + pixels.length + left - count = pixels.length + left by omega] at hrest
    obtain ⟨fuel'', out'', hrest', rfl⟩ := ih hrest
    exact ⟨fuel'', out'', hrest', (List.append_assoc ..).symm⟩

/-- DECODE_IMAGE is START DECODE and the chunks from there (R81). -/
theorem decodeImage_eq (n : Nat) (stream : List Byte) (d : State) :
    decodeImage n stream d = decodePixels n n stream (d.started .decode) := by
  obtain ⟨r, hstart⟩ := hostCommand_start d (m := 2) (mode := .decode) rfl
  simp only [decodeImage, hstart]

/-! ### ENCODE_IMAGE, cut in two (R81) -/

/-- ENC_PIXEL of a pixel and of the ones behind it: the bytes of the one, then of the others. -/
theorem encodePixels_cons_iff {p : Pixel} {ps : List Pixel} {s w : State} {bytes : List Byte} :
    encodePixels (p :: ps) s = some (bytes, w) ↔ ∃ r t rest, hostCommand (.encPixel p) s = some (r, t) ∧
      encodePixels ps t = some (rest, w) ∧ bytes = r.bytes ++ rest := by
  cases hcommand : hostCommand (.encPixel p) s with
  | none => simp [encodePixels, hcommand]
  | some answer =>
    obtain ⟨r, t⟩ := answer
    cases hrest : encodePixels ps t with
    | none => simp [encodePixels, hcommand, hrest]
    | some result =>
      obtain ⟨bytes', u⟩ := result
      simp [encodePixels, hcommand, hrest, eq_comm, and_comm]

/-- ENC_PIXEL of two lists of pixels, one after the other. -/
theorem encodePixels_append {before after : List Pixel} {s e w : State} {part rest : List Byte}
    (hbefore : encodePixels before s = some (part, e)) (hafter : encodePixels after e = some (rest, w)) :
    encodePixels (before ++ after) s = some (part ++ rest, w) := by
  induction before generalizing s part with
  | nil =>
    cases hbefore
    exact hafter
  | cons p ps ih =>
    obtain ⟨r, t, bytes, hcommand, hps, rfl⟩ := encodePixels_cons_iff.1 hbefore
    exact encodePixels_cons_iff.2 ⟨r, t, _, hcommand, ih hps, List.append_assoc ..⟩

/-- ENCODE_IMAGE is the bytes of every pixel and then those that close the open run (R81, R181). -/
theorem encodeImage_of_encodePixels {pixels : List Pixel} {s w : State} {bytes : List Byte}
    (hencode : encodePixels pixels (s.started .encode) = some (bytes, w)) (hw : ReadyIn .encode w) :
    ∃ s', encodeImage pixels s = some (bytes ++ closeRun w.run, s') := by
  obtain ⟨r, hstart⟩ := hostCommand_start s (m := 1) (mode := .encode) rfl
  obtain ⟨r', hflush, hbytes⟩ := hostCommand_bytes (exec_encFlush hw) ((closeRun_length_le w.run).trans (by decide))
  refine ⟨{ w with run := 0 }.respondBytes (closeRun w.run) 0, ?_⟩
  simp only [encodeImage, hstart, hencode, hflush, hbytes]

/-! ### The open run at the cut (R173, R174, R181) -/

/-- The bytes begin with a RUN chunk of at least `k` pixels. -/
def BeginsWithRun (k : Nat) (bytes : List Byte) : Prop :=
  ∃ n tail, k ≤ n ∧ n ≤ 62 ∧ bytes = (Chunk.run n).pack ++ tail

theorem BeginsWithRun.append {k : Nat} {bytes : List Byte} (h : BeginsWithRun k bytes) (more : List Byte) :
    BeginsWithRun k (bytes ++ more) := by
  obtain ⟨n, tail, hk, hn, rfl⟩ := h
  exact ⟨n, tail ++ more, hk, hn, List.append_assoc ..⟩

theorem BeginsWithRun.mono {k k' : Nat} {bytes : List Byte} (h : BeginsWithRun k bytes) (hk : k' ≤ k) :
    BeginsWithRun k' bytes := by
  obtain ⟨n, tail, hkn, hn, rfl⟩ := h
  exact ⟨n, tail, hk.trans hkn, hn, rfl⟩

/-- Closing an open run emits its RUN chunk (R174, R181). -/
theorem closeRun_beginsWithRun {run : BitVec 6} (hopen : run ≠ 0) (hbounded : run.toNat ≤ 61) :
    BeginsWithRun run.toNat (closeRun run) :=
  ⟨run.toNat, [], le_rfl, hbounded.trans (by decide), by rw [closeRun, if_neg hopen, List.append_nil]⟩

/-- The one response and state that a command with these bytes can give the host. -/
theorem hostCommand_bytes_inv {i : Instr} {s t u : State} {bytes : List Byte} {r0 : Word} {r : Response}
    (hexec : exec i s = .next (t.respondBytes bytes r0)) (hlength : bytes.length ≤ 5)
    (hcommand : hostCommand i s = some (r, u)) : r.bytes = bytes ∧ u = t.respondBytes bytes r0 := by
  obtain ⟨r', hcommand', hbytes⟩ := hostCommand_bytes hexec hlength
  cases hcommand.symm.trans hcommand'
  exact ⟨hbytes, rfl⟩

/-- What ENC_PIXEL does with an open run: it emits a RUN chunk that holds the run, or it emits nothing and the run counts
on (R173, R174). -/
theorem encPixel_openRun {e e' : State} (h : ReadyIn .encode e) (hbounded : e.RunBounded) (hopen : e.run ≠ 0)
    {p : Pixel} {r : Response} (hcommand : hostCommand (.encPixel p) e = some (r, e')) :
    BeginsWithRun e.run.toNat r.bytes ∨ r.bytes = [] ∧ e'.run.toNat = e.run.toNat + 1 := by
  have hle : e.run.toNat ≤ 61 := hbounded
  have hexec := exec_encPixel h p
  unfold encodePixel at hexec
  split at hexec
  · unfold encodeRepeat at hexec
    split at hexec
    · obtain ⟨hbytes, -⟩ := hostCommand_bytes_inv hexec (by decide) hcommand
      exact .inl ⟨62, [], by omega, le_rfl, hbytes⟩
    · obtain ⟨hbytes, rfl⟩ := hostCommand_bytes_inv hexec (by decide) hcommand
      refine .inr ⟨hbytes, ?_⟩
      show (e.run + 1).toNat = _
      bv_omega
  · have hlength := Nat.add_le_add (closeRun_length_le e.run) (chooseChunk p e.prev (e.probe p).1).pack_length_le
    rw [← List.length_append] at hlength
    obtain ⟨hbytes, -⟩ := hostCommand_bytes_inv hexec hlength hcommand
    rw [hbytes]
    exact .inl ((closeRun_beginsWithRun hopen hle).append _)

section

variable {e d : State}

/-- Whatever pixels follow, the rest of the image's stream begins with a RUN chunk that holds the open run. -/
theorem State.Tracks.rest_beginsWithRun (h : e.Tracks d) (hopen : e.run ≠ 0) {pixels : List Pixel} {w : State}
    {rest : List Byte} (hencode : Machine.encodePixels pixels e = some (rest, w)) :
    BeginsWithRun e.run.toNat (rest ++ Machine.closeRun w.run) := by
  induction pixels generalizing e d rest with
  | nil =>
    cases hencode
    exact closeRun_beginsWithRun hopen h.bounded
  | cons p ps ih =>
    obtain ⟨r, e', bytes, hcommand, hps, rfl⟩ := encodePixels_cons_iff.1 hencode
    rw [List.append_assoc]
    obtain hrun | ⟨hempty, hcount⟩ := encPixel_openRun h.encoding h.bounded hopen hcommand
    · exact hrun.append _
    · obtain ⟨_, _, _, _, hcommand', -, -, htracks⟩ := h.encPixel p
      cases hcommand.symm.trans hcommand'
      have hopen' : e'.run ≠ 0 := fun h0 => by simp [h0] at hcount
      rw [hempty]
      exact (ih htracks hopen' hps).mono (by omega)

/-- A decoder that can produce exactly the open run does so by a RUN chunk, or by none: its cache stays. -/
theorem State.Tracks.decodePixels_openRun (h : e.Tracks d) {pixels out : List Pixel} {w u : State} {rest : List Byte}
    {fuel : Nat} (hencode : Machine.encodePixels pixels e = some (rest, w))
    (hdecode : decodePixels fuel e.run.toNat (rest ++ Machine.closeRun w.run) d = some (out, u)) :
    out = e.openRun ∧ e.SameCache u := by
  by_cases hrun : e.run.toNat = 0
  · rw [hrun, decodePixels_zero] at hdecode
    cases hdecode
    exact ⟨by rw [State.openRun, hrun]; rfl, h.cache⟩
  · have hopen : e.run ≠ 0 := fun h0 => hrun (by rw [h0]; rfl)
    obtain ⟨n, tail, hlo, hhi, hbytes⟩ := h.rest_beginsWithRun hopen hencode
    have hpos : 1 ≤ n := by omega
    have hchunk : ChunkDecodes d (Chunk.run n).pack n d.prev (d.decoded .run d.prev n) :=
      chunkDecodes_pack h.decoding (c := .run n) (decide_eq_true ⟨hpos, hhi⟩) (by omega) rfl
    rw [hbytes] at hdecode
    obtain ⟨hfits, fuel', out', hrest, rfl⟩ := hchunk.decodePixels_rest hrun hdecode
    obtain rfl : n = e.run.toNat := by omega
    rw [Nat.sub_self, decodePixels_zero] at hrest
    cases hrest
    exact ⟨by rw [List.append_nil, State.openRun, h.prev], h.cache⟩

end

/-- Settles O50: up to their last chunk the pixels before the cut decode to a decoder that tracks the encoder
(`State.Tracks.encodePixels`), and the pixels of the encoder's open run, if any are left, come from one RUN chunk
(`State.Tracks.decodePixels_openRun`). -/
theorem cachesAgreeAfterEveryPrefix : Obligations.CachesAgreeAfterEveryPrefix := by
  intro before after s s0 e d u r bytes part s' out hstart hbefore hencode hdecode
  obtain ⟨r', hstart'⟩ := hostCommand_start s (m := 1) (mode := .encode) rfl
  cases hstart.symm.trans hstart'
  obtain ⟨_, _, whole, d0, hbefore', hstream, hpixels, htracks⟩ := (s.started_tracks d).encodePixels before
  cases hbefore.symm.trans hbefore'
  obtain ⟨rest, w, _, _, hafter, -, -, htracks'⟩ := htracks.encodePixels after
  obtain ⟨s'', hencode'⟩ := encodeImage_of_encodePixels (encodePixels_append hbefore hafter) htracks'.encoding
  cases hencode.symm.trans hencode'
  have hsplit : before = whole ++ e.openRun := hpixels
  have hlength : before.length = whole.length + e.run.toNat := by
    rw [hsplit, List.length_append, State.openRun, List.length_replicate]
  rw [decodeImage_eq, hlength, List.append_assoc] at hdecode
  obtain ⟨fuel, out', hrest, rfl⟩ := hstream.decodePixels_rest hdecode
  obtain ⟨rfl, hcache⟩ := htracks.decodePixels_openRun hafter hrest
  exact ⟨hsplit.symm, hcache⟩

end Sys2Proof.Machine
end

section
/-! Packing (spec/42_chunk_pack.md R130 to R137): what each PACK command emits or raises, and that the encoder step
packs fields in range only. -/

namespace Sys2Proof.Machine

open Sys2Proof.Claims

/-! ### Operand fields (R74) -/

/-- The number of the bits lo+n-1..lo, as a field of n bits, is the field at `lo`. -/
theorem ofNat_bitsOf {w : Word} {hi lo n : Nat} (h : hi + 1 - lo = n) :
    BitVec.ofNat n (bitsOf w hi lo) = fieldAt w lo n := by
  subst h
  rw [bitsOf_eq_fieldAt, BitVec.ofNat_toNat, BitVec.setWidth_eq]

/-- `Reads` for a command that takes the byte a[7:0], from the decoder's row. -/
theorem reads_byte {op : BitVec 5} {f : BitVec 8 → Instr}
    (hrow : ∀ a b, decode (.command ⟨op, a, b⟩) = .ok (f (fieldAt a 0 8))) :
    Reads op (fun a _ => f (BitVec.ofNat 8 (bitsOf a 7 0))) :=
  fun a b => by simp only [hrow, ofNat_bitsOf]

/-- `Reads` for a command that takes three 9-bit fields from `a`, from the decoder's row. -/
theorem reads_deltas {op : BitVec 5} {f : BitVec 9 → BitVec 9 → BitVec 9 → Instr}
    (hrow : ∀ a b, decode (.command ⟨op, a, b⟩) = .ok (f (fieldAt a 18 9) (fieldAt a 9 9) (fieldAt a 0 9))) :
    Reads op (fun a _ => f (BitVec.ofNat 9 (bitsOf a 26 18)) (BitVec.ofNat 9 (bitsOf a 17 9))
      (BitVec.ofNat 9 (bitsOf a 8 0))) :=
  fun a b => by simp only [hrow, ofNat_bitsOf]

/-- The two's-complement reading of a 9-bit field (R12). -/
theorem signed9_toNat (v : BitVec 9) : signed9 v.toNat = v.toInt := by
  simp only [signed9, BitVec.toInt_eq_toNat_cond]
  split <;> split <;> omega

/-! ### What a PACK command answers (R136) -/

/-- A response with up to five stream bytes, the unused places 0 (R75). -/
theorem State.respondBytes_eq_answered (s : State) {bytes : List Byte} (hlength : bytes.length ≤ 5) (r0 : Word) :
    s.respondBytes bytes r0 = answered s (stream bytes r0) := by
  match bytes, hlength with
  | [], _ => rfl
  | [_], _ => rfl
  | [_, _], _ => rfl
  | [_, _, _], _ => rfl
  | [_, _, _, _], _ => rfl
  | [_, _, _, _, _], _ => rfl
  | _ :: _ :: _ :: _ :: _ :: _ :: _, hlength => simp at hlength; omega

section
variable {op : BitVec 5} {fits : Bool} {c : Chunk} {s : State}

/-- Fields that fit are emitted as their chunk, and nothing changes (R136). -/
theorem packOrRaise_answered (hfits : fits = true) : packOrRaise op fits c s = answered s (stream c.pack 0) := by
  rw [packOrRaise_fits hfits, s.respondBytes_eq_answered (c.pack_length_le.trans (by decide))]

/-- Fields that do not fit are a RangeError with the command's op, and only ERR is written (R136, R235). -/
theorem packOrRaise_raised (hfits : ¬ fits = true) :
    packOrRaise op fits c s = raised s .rangeError (op.setWidth 8) :=
  packOrRaise_raises (Bool.eq_false_iff.2 hfits)

end

section
variable {s : State} (hready : Ready s)
include hready

theorem exec_packRun (n : BitVec 8) :
    exec (.packRun n) s = .next (packOrRaise 0x10 (Chunk.run n.toNat).packable (.run n.toNat) s) :=
  exec_anyMode hready rfl rfl

theorem exec_packIndex (slot : BitVec 8) :
    exec (.packIndex slot) s = .next (packOrRaise 0x11 (decide (slot.toNat ≤ 63)) (.index (slot.setWidth 6)) s) :=
  exec_anyMode hready rfl rfl

theorem exec_packDiffSmall (x y z : BitVec 9) :
    exec (.packDiffSmall x y z) s =
      .next (packOrRaise 0x12 (diffSmallFits x.toInt y.toInt z.toInt) (.diffSmall x.toInt y.toInt z.toInt) s) :=
  exec_anyMode hready rfl rfl

theorem exec_packDiffMed (x y z : BitVec 9) :
    exec (.packDiffMed x y z) s =
      .next (packOrRaise 0x13 (diffMedFits x.toInt y.toInt z.toInt) (.diffMed x.toInt y.toInt z.toInt) s) :=
  exec_anyMode hready rfl rfl

theorem exec_packRgb (p : Pixel) : exec (.packRgb p) s = .next (packOrRaise 0x14 true (.rgb p) s) :=
  exec_anyMode hready rfl rfl

end

/-! ### The chunk bytes in the numbers of the spec (R130) -/

/-- A biased value that fits its field is the field's number (R71). -/
theorem biased_toNat {bias : Int} {n : Nat} {x : Int} (hlo : 0 ≤ x + bias) (hhi : x + bias < 2 ^ n) :
    ((biased bias n x).toNat : Int) = x + bias := by
  have h := unbias_biased bias n x hlo hhi
  rw [unbias] at h
  omega

/-- A byte is the one of its number. -/
theorem byte_eq_ofInt {b : Byte} {x : Int} (h : (b.toNat : Int) = x) : b = BitVec.ofInt 8 x := by
  rw [← h, BitVec.ofInt_natCast, BitVec.ofNat_toNat, BitVec.setWidth_eq]

theorem Chunk.run_packable_iff (n : Nat) : (Chunk.run n).packable = true ↔ 1 ≤ n ∧ n ≤ 62 := by
  simp [Chunk.packable]

/-- RUN: 0xC0 and the length less 1 (R64, R131). -/
theorem Chunk.pack_run {n : Nat} (h : 1 ≤ n ∧ n ≤ 62) : (Chunk.run n).pack = [BitVec.ofNat 8 (0xC0 + n - 1)] := by
  rw [Chunk.pack, Config.runBias, List.cons.injEq, BitVec.toNat_eq, runByte_toNat, BitVec.toNat_ofNat,
    BitVec.toNat_ofNat]
  exact ⟨by omega, rfl⟩

/-- INDEX: the slot itself (R61, R132). -/
theorem Chunk.pack_index {slot : BitVec 8} (h : slot.toNat ≤ 63) : (Chunk.index (slot.setWidth 6)).pack = [slot] := by
  rw [Chunk.pack, List.cons.injEq, BitVec.toNat_eq, indexByte_toNat, BitVec.toNat_setWidth]
  exact ⟨by omega, rfl⟩

/-- DIFF_SMALL: 0x40 and the three biased deltas, dr highest (R63, R133). -/
theorem Chunk.pack_diffSmall {dr dg db : Int}
    (h : (-2 ≤ dr ∧ dr ≤ 1) ∧ (-2 ≤ dg ∧ dg ≤ 1) ∧ (-2 ≤ db ∧ db ≤ 1)) :
    (Chunk.diffSmall dr dg db).pack = [BitVec.ofInt 8 (0x40 + 16 * (dr + 2) + 4 * (dg + 2) + (db + 2))] := by
  obtain ⟨hr, hg, hb⟩ := h
  have hrr := biased_toNat (bias := 2) (n := 2) (x := dr) (by omega) (by omega)
  have hgg := biased_toNat (bias := 2) (n := 2) (x := dg) (by omega) (by omega)
  have hbb := biased_toNat (bias := 2) (n := 2) (x := db) (by omega) (by omega)
  simp only [Chunk.pack, Config.dsBias, List.cons.injEq, and_true]
  refine byte_eq_ofInt ?_
  rw [dsByte_toNat]
  omega

/-- DIFF_MED: 0x80 and the biased dg, then the two biased differences, u high (R62, R134). -/
theorem Chunk.pack_diffMed {dg u v : Int}
    (h : (-32 ≤ dg ∧ dg ≤ 31) ∧ (-8 ≤ u ∧ u ≤ 7) ∧ (-8 ≤ v ∧ v ≤ 7)) :
    (Chunk.diffMed dg u v).pack =
      [BitVec.ofInt 8 (0x80 + (dg + 32)), BitVec.ofInt 8 (16 * (u + 8) + (v + 8))] := by
  obtain ⟨hg, hu, hv⟩ := h
  have hgg := biased_toNat (bias := 32) (n := 6) (x := dg) (by omega) (by omega)
  have huu := biased_toNat (bias := 8) (n := 4) (x := u) (by omega) (by omega)
  have hvv := biased_toNat (bias := 8) (n := 4) (x := v) (by omega) (by omega)
  simp only [Chunk.pack, Config.dmGBias, Config.dmRbBias, dmBytes, List.cons.injEq, and_true]
  refine ⟨byte_eq_ofInt ?_, byte_eq_ofInt ?_⟩
  · rw [dmByte_toNat]
    omega
  · rw [nibbles_toNat]
    omega

/-! ### The PACK commands (R131 to R135) -/

/-- Settles O18: inside 1..62 the byte is `Chunk.pack_run`, outside the chunk is not packable. -/
theorem packRunByteOrRangeError : Obligations.PackRunByteOrRangeError := by
  refine ⟨reads_byte fun _ _ => rfl, fun n s hready => ⟨fun hin => ?_, fun hout => ?_⟩⟩
  · rw [exec_packRun hready, packOrRaise_answered ((Chunk.run_packable_iff _).2 hin), Chunk.pack_run hin]
  · have hnot : ¬ (1 ≤ n.toNat ∧ n.toNat ≤ 62) := by omega
    rw [exec_packRun hready, packOrRaise_raised (mt (Chunk.run_packable_iff _).1 hnot)]
    rfl

/-- Settles O19: up to 63 the byte is the slot (`Chunk.pack_index`), whatever the cache holds. -/
theorem packIndexByteOrRangeError : Obligations.PackIndexByteOrRangeError := by
  refine ⟨reads_byte fun _ _ => rfl, fun slot s hready => ⟨fun hin => ?_, fun hout => ?_⟩⟩
  · rw [exec_packIndex hready, packOrRaise_answered (decide_eq_true hin), Chunk.pack_index hin]
  · have hnot : ¬ slot.toNat ≤ 63 := by omega
    rw [exec_packIndex hready, packOrRaise_raised (mt of_decide_eq_true hnot)]
    rfl

/-- Settles O20: the three fields are read as two's complement (`signed9_toNat`), tested by `diffSmallFits_iff` and
packed by `Chunk.pack_diffSmall`. -/
theorem packDiffSmallByteOrRangeError : Obligations.PackDiffSmallByteOrRangeError := by
  refine ⟨reads_deltas fun _ _ => rfl, fun x y z s hready => ?_⟩
  simp only [signed9_toNat, exec_packDiffSmall hready]
  refine ⟨fun hin => ?_, fun hout => ?_⟩
  · rw [packOrRaise_answered ((diffSmallFits_iff _ _ _).2 hin), Chunk.pack_diffSmall hin]
  · rw [packOrRaise_raised (mt (diffSmallFits_iff _ _ _).1 hout)]
    rfl

/-- Settles O21: the three fields are read as two's complement (`signed9_toNat`), tested by `diffMedFits_iff` and
packed by `Chunk.pack_diffMed`. -/
theorem packDiffMedBytesOrRangeError : Obligations.PackDiffMedBytesOrRangeError := by
  refine ⟨reads_deltas fun _ _ => rfl, fun x y z s hready => ?_⟩
  simp only [signed9_toNat, exec_packDiffMed hready]
  refine ⟨fun hin => ?_, fun hout => ?_⟩
  · rw [packOrRaise_answered ((diffMedFits_iff _ _ _).2 hin), Chunk.pack_diffMed hin]
  · rw [packOrRaise_raised (mt (diffMedFits_iff _ _ _).1 hout)]
    rfl

/-- Settles O22: every pixel fits, and its chunk is the tag and the three channels (R65). -/
theorem packRgbBytes : Obligations.PackRgbBytes := by
  refine ⟨reads_pixel fun _ _ => rfl, fun p s hready => ?_⟩
  rw [exec_packRgb hready, packOrRaise_answered rfl]
  rfl

/-! ### The encoder step (R137) -/

/-- Every way through ENC_PIXEL's rule ends in a response with stream bytes. -/
theorem encodePixel_responds (p : Pixel) (s : State) :
    ∃ (t : State) (bytes : List Byte) (r0 : Word), encodePixel p s = t.respondBytes bytes r0 := by
  unfold encodePixel encodeRepeat
  split
  · split
    · exact ⟨_, _, _, rfl⟩
    · exact ⟨_, _, _, rfl⟩
  · exact ⟨_, _, _, rfl⟩

/-- A response with stream bytes carries no error (R75). -/
theorem State.err_of_respondBytes {s : State} {bytes : List Byte} {r0 : Word} {r : Response}
    (h : (s.respondBytes bytes r0).rsp = some r) : r.err = .noError := by
  cases h
  obtain ⟨herr, -⟩ := Response.emitAll_words bytes Response.zero
  exact herr

/-- ENC_PIXEL of a block not faulted answers without error, or with ModeError (R137, R213). -/
theorem exec_encPixel_err {p : Pixel} {s t : State} {r : Response} (hready : Ready s)
    (hexec : exec (.encPixel p) s = .next t) (hrsp : t.rsp = some r) : r.err = .noError ∨ r.err = .modeError := by
  obtain ⟨hf, -, -⟩ | ⟨hf, -, -⟩ | ⟨-, hlegal, -⟩ | ⟨-, -, -, rfl⟩ | ⟨-, -, -, rfl⟩ := exec_cases hexec
  · exact absurd hready hf
  · exact absurd hready hf
  · cases hlegal
  · cases hrsp
    exact .inr rfl
  · obtain ⟨u, bytes, r0, hu⟩ := encodePixel_responds p s
    rw [ruleOf, hu] at hrsp
    exact .inl (State.err_of_respondBytes hrsp)

/-- Settles O30: the errors of ENC_PIXEL are those of `exec_encPixel_err`, the chosen chunk is in range by
`chooseChunk_packable`, and a run is when its length is in 1..62. -/
theorem encoderPacksInRange : Obligations.EncoderPacksInRange := by
  refine ⟨fun p s t r hready hexec hrsp hrange => ?_, chooseChunk_packable, fun s hbounded hopen => ?_, rfl⟩
  · obtain herr | herr := exec_encPixel_err hready hexec hrsp <;> cases herr.symm.trans hrange
  · have hle : s.run.toNat ≤ 61 := hbounded
    have hpos : s.run.toNat ≠ 0 := fun h => hopen (BitVec.eq_of_toNat_eq h)
    exact (Chunk.run_packable_iff _).2 ⟨by omega, by omega⟩

end Sys2Proof.Machine
end

section
/-! Unpacking (spec/43_chunk_unpack.md R150 to R159): what UNPACK answers by the first byte and the bytes present, that
what Unpack reads is packed back to its bytes, and a chunk that the host presents cut short. -/

namespace Sys2Proof.Machine

open Sys2Proof.Claims

/-! ### UNPACK behind its gate (R157) -/

/-- `Reads` for a command that takes four stream bytes from `a` and `avail` from `b`, from the decoder's row. -/
theorem reads_stream {op : BitVec 5} {f : Byte → Byte → Byte → Byte → BitVec 3 → Instr}
    (hrow : ∀ a b, decode (.command ⟨op, a, b⟩) =
      .ok (f (fieldAt a 24 8) (fieldAt a 16 8) (fieldAt a 8 8) (fieldAt a 0 8) (fieldAt b 0 3))) :
    Reads op (fun a b => f (BitVec.ofNat 8 (bitsOf a 31 24)) (BitVec.ofNat 8 (bitsOf a 23 16))
      (BitVec.ofNat 8 (bitsOf a 15 8)) (BitVec.ofNat 8 (bitsOf a 7 0)) (BitVec.ofNat 3 (bitsOf b 2 0))) :=
  fun a b => by simp only [hrow, ofNat_bitsOf]

/-- The kind's number, and 8 for each byte of the chunk (R76, R78). -/
theorem unpackR0_eq (c : Chunk) : unpackR0 c = BitVec.ofNat 32 (c.kind.bits.toNat + 8 * c.kind.length) := by
  unfold unpackR0
  cases c.kind <;> decide

section
variable {s : State} {s0 s1 s2 s3 : Byte} {avail : BitVec 3} (hready : Ready s)
include hready

/-- A chunk that Unpack reads is answered by its two result words, in every mode (R157). -/
theorem exec_unpack_ok {c : Chunk} (hunpack : unpackChunk s0 s1 s2 s3 (availNumber avail) = .ok c) :
    exec (.unpack s0 s1 s2 s3 avail) s = .next (answered s
      (words (BitVec.ofNat 32 (c.kind.bits.toNat + 8 * c.kind.length)) (unpackR1 c))) := by
  rw [exec_anyMode hready rfl rfl, ruleOf, unpackRule, availOf_eq_availNumber, hunpack, ← unpackR0_eq]
  rfl

/-- A chunk that Unpack rejects is an UnknownTagError, and only ERR is written (R151, R237). -/
theorem exec_unpack_error {info : Byte} (hunpack : unpackChunk s0 s1 s2 s3 (availNumber avail) = .error info) :
    exec (.unpack s0 s1 s2 s3 avail) s = .next (raised s .unknownTag info) := by
  rw [exec_anyMode hready rfl rfl, ruleOf, unpackRule, availOf_eq_availNumber, hunpack]
  rfl

end

/-- Unpack rejects a chunk of which fewer bytes are present than its first byte requires (R151). -/
theorem unpackChunk_truncated {s0 : Byte} (s1 s2 s3 : Byte) {n : Nat}
    (h : n = 0 ∨ (0x80 ≤ s0.toNat ∧ s0.toNat ≤ 0xBF ∧ n < 2) ∨ (s0.toNat = 0xFE ∧ n < 4)) :
    unpackChunk s0 s1 s2 s3 n = .error (BitVec.ofNat 8 n) := by
  by_cases hn : n = 0
  · subst hn
    exact unpackChunk_none s0 s1 s2 s3
  have hone : 1 ≤ n := Nat.one_le_iff_ne_zero.2 hn
  obtain h0 | ⟨hlo, hhi, hshort⟩ | ⟨hrgb, hshort⟩ := h
  · exact absurd h0 hn
  · rw [unpackChunk_diffMed _ _ _ hone hlo hhi, if_pos hshort]
  · rw [unpackChunk_rgb _ _ _ hone hrgb, if_pos hshort]

/-! ### The fields in `r1` (R77) -/

theorem unpackR1_index {b0 : Byte} (h : b0.toNat ≤ 0x3F) :
    unpackR1 (.index (low6 b0)) = BitVec.ofNat 32 b0.toNat := by
  rw [unpackR1, place_zero, low6_toNat, Nat.mod_eq_of_lt (by omega)]

theorem unpackR1_run {n : Nat} (h : n < 128) : unpackR1 (.run n) = BitVec.ofNat 32 n := by
  rw [unpackR1, place_zero, BitVec.toNat_ofNat, Nat.mod_eq_of_lt h]

/-- The deltas of a DIFF_SMALL byte are its bit pairs less 2 (R155). -/
theorem unpackR1_diffSmall (b0 : Byte) :
    HasDeltas (unpackR1 (diffSmallFields (dsFields b0).1 (dsFields b0).2.1 (dsFields b0).2.2))
      ((b0.toNat / 16 % 4 : Nat) - 2) ((b0.toNat / 4 % 4 : Nat) - 2) ((b0.toNat % 4 : Nat) - 2) := by
  obtain ⟨hr, hg, hb⟩ := dsFields_toNat b0
  simp only [diffSmallFields, unbias, hr, hg, hb, Config.dsBias]
  exact deltaResult_hasDeltas (by omega) (by omega) (by omega)

/-- The quantities of a DIFF_MED chunk are its six bits less 32 and its nibbles less 8 (R156). -/
theorem unpackR1_diffMed {b0 : Byte} (b1 : Byte) (hlo : 0x80 ≤ b0.toNat) (hhi : b0.toNat ≤ 0xBF) :
    HasDeltas (unpackR1 (diffMedFields (low6 b0) (b1.extractLsb' 4 4) (b1.extractLsb' 0 4)))
      ((b0.toNat - 0x80 : Nat) - 32) ((b1.toNat / 16 : Nat) - 8) ((b1.toNat % 16 : Nat) - 8) := by
  have hlow : b0.toNat % 64 = b0.toNat - 0x80 := by omega
  simp only [diffMedFields, unbias, low6_toNat, high_nibble_toNat, low_nibble_toNat, hlow, Config.dmGBias,
    Config.dmRbBias]
  exact deltaResult_hasDeltas (by omega) (by omega) (by omega)

/-- Settles O23: by the first byte, the chunk that Unpack reads (`unpackChunk_index` and its fellows) and its result
words; with too few bytes, `unpackChunk_truncated`. -/
theorem unpackReadsEveryFirstByte : Obligations.UnpackReadsEveryFirstByte := by
  refine ⟨reads_stream fun _ _ => rfl, fun s0 s1 s2 s3 avail s hready =>
    ⟨fun hindex hn => ?_, fun ⟨hlo, hhi⟩ hn => ?_, fun ⟨hlo, hhi⟩ hn => ?_, fun ⟨hlo, hhi⟩ hn => ?_, fun hrgb hn => ?_,
      fun hlast hn => ?_, fun hshort => ?_⟩⟩
  · rw [exec_unpack_ok hready (unpackChunk_index s1 s2 s3 hn hindex), unpackR1_index hindex]
    rfl
  · exact ⟨_, exec_unpack_ok hready (unpackChunk_diffSmall s1 s2 s3 hn hlo hhi), unpackR1_diffSmall s0⟩
  · have hunpack := unpackChunk_diffMed s1 s2 s3 (Nat.one_le_of_lt hn) hlo hhi
    rw [if_neg (Nat.not_lt.2 hn)] at hunpack
    exact ⟨_, exec_unpack_ok hready hunpack, unpackR1_diffMed s1 hlo hhi⟩
  · rw [exec_unpack_ok hready (unpackChunk_run s1 s2 s3 hn hlo (by omega)), unpackR1_run (by omega)]
    rfl
  · have hunpack := unpackChunk_rgb s1 s2 s3 (Nat.one_le_of_lt hn) hrgb
    rw [if_neg (Nat.not_lt.2 hn)] at hunpack
    rw [exec_unpack_ok hready hunpack, unpackR1, place_pixel]
    rfl
  · rw [exec_unpack_ok hready (unpackChunk_run s1 s2 s3 hn (by omega) (by omega)), hlast]
    rfl
  · exact exec_unpack_error hready (unpackChunk_truncated s1 s2 s3 hshort)

/-! ### Packing what Unpack reads (R159) -/

/-- The map of first bytes (R67): INDEX, DIFF_SMALL, DIFF_MED, RUN, RGB. -/
theorem firstByte_cases (b0 : Byte) : b0.toNat ≤ 0x3F ∨ (0x40 ≤ b0.toNat ∧ b0.toNat ≤ 0x7F) ∨
    (0x80 ≤ b0.toNat ∧ b0.toNat ≤ 0xBF) ∨ (0xC0 ≤ b0.toNat ∧ b0.toNat ≠ 0xFE) ∨ b0.toNat = 0xFE := by
  omega

/-- A stored field, unbiased, lies in the field's range (R71). -/
theorem unbias_bounds (bias : Int) {n : Nat} (v : BitVec n) : -bias ≤ unbias bias v ∧ unbias bias v < 2 ^ n - bias := by
  have hv : (v.toNat : Int) < 2 ^ n := by exact_mod_cast v.isLt
  rw [unbias]
  omega

/-- What a DIFF_SMALL byte can hold is in range (R133, R155). -/
theorem diffSmallFields_packable (rr gg bb : BitVec 2) : (diffSmallFields rr gg bb).packable = true := by
  have hr := unbias_bounds 2 rr
  have hg := unbias_bounds 2 gg
  have hb := unbias_bounds 2 bb
  exact (diffSmallFits_iff _ _ _).2 (by simp only [Config.dsBias]; omega)

/-- What a DIFF_MED chunk can hold is in range (R134, R156). -/
theorem diffMedFields_packable (gggggg : BitVec 6) (uuuu vvvv : BitVec 4) :
    (diffMedFields gggggg uuuu vvvv).packable = true := by
  have hg := unbias_bounds 32 gggggg
  have hu := unbias_bounds 8 uuuu
  have hv := unbias_bounds 8 vvvv
  exact (diffMedFits_iff _ _ _).2 (by simp only [Config.dmGBias, Config.dmRbBias]; omega)

theorem pack_diffSmallFields (rr gg bb : BitVec 2) : (diffSmallFields rr gg bb).pack = [dsByte rr gg bb] := by
  simp only [diffSmallFields, Chunk.pack, biased_unbias]

theorem pack_diffMedFields (gggggg : BitVec 6) (uuuu vvvv : BitVec 4) :
    (diffMedFields gggggg uuuu vvvv).pack = dmBytes gggggg uuuu vvvv := by
  simp only [diffMedFields, Chunk.pack, biased_unbias]

/-- What Unpack reads is in range and packs to the bytes it was read from, but for the first byte 0xFF: only its RUN
of 64 is too long to pack (R68, R159). -/
theorem pack_of_unpackChunk {s0 s1 s2 s3 : Byte} {n : Nat} {c : Chunk} (hne : s0 ≠ 0xFF)
    (hunpack : unpackChunk s0 s1 s2 s3 n = .ok c) :
    c.packable = true ∧ c.pack = [s0, s1, s2, s3].take c.kind.length := by
  have hpos : n ≠ 0 := by
    rintro rfl
    rw [unpackChunk_none] at hunpack
    cases hunpack
  have hone : 1 ≤ n := Nat.one_le_iff_ne_zero.2 hpos
  obtain hb | ⟨hlo, hhi⟩ | ⟨hlo, hhi⟩ | ⟨hlo, hrgb⟩ | hb := firstByte_cases s0
  · rw [unpackChunk_index _ _ _ hone hb] at hunpack
    cases hunpack
    have htag : tagOf s0 = 0 := (tagOf_eq_iff s0 0).2 (show s0.toNat / 64 = 0 by omega)
    exact ⟨rfl, congrArg ([·]) (tag_append_low6 htag)⟩
  · rw [unpackChunk_diffSmall _ _ _ hone hlo hhi] at hunpack
    cases hunpack
    have htag : tagOf s0 = 1 := (tagOf_eq_iff s0 1).2 (show s0.toNat / 64 = 1 by omega)
    refine ⟨diffSmallFields_packable _ _ _, ?_⟩
    rw [pack_diffSmallFields, dsByte_dsFields htag]
    rfl
  · rw [unpackChunk_diffMed _ _ _ hone hlo hhi] at hunpack
    split at hunpack <;> cases hunpack
    have htag : tagOf s0 = 2#2 := (tagOf_eq_iff s0 2).2 (show s0.toNat / 64 = 2 by omega)
    refine ⟨diffMedFields_packable _ _ _, ?_⟩
    rw [pack_diffMedFields, dmBytes, tag_append_low6 htag, nibbles_append]
    rfl
  · rw [unpackChunk_run _ _ _ hone hlo hrgb] at hunpack
    cases hunpack
    have hlast : s0.toNat ≠ 0xFF := fun h => hne (BitVec.eq_of_toNat_eq h)
    have hlength : 1 ≤ s0.toNat - 0xC0 + 1 ∧ s0.toNat - 0xC0 + 1 ≤ 62 := by omega
    refine ⟨(Chunk.run_packable_iff _).2 hlength, ?_⟩
    have hbyte : 0xC0 + (s0.toNat - 0xC0 + 1) - 1 = s0.toNat := by omega
    rw [Chunk.pack_run hlength, hbyte, BitVec.ofNat_toNat, BitVec.setWidth_eq]
    rfl
  · rw [unpackChunk_rgb _ _ _ hone hb] at hunpack
    split at hunpack <;> cases hunpack
    exact ⟨rfl, congrArg ([·, s1, s2, s3]) ((rgbTag_iff s0).2 hb).symm⟩

/-- Settles O24: `unpackChunk_pack` one way, `pack_of_unpackChunk` the other; 0xFF is the RUN byte of 64. -/
theorem fieldCodecRoundTrips : Obligations.FieldCodecRoundTrips :=
  ⟨fun c tail _ hpack havail => ⟨unpackChunk_pack hpack tail havail, c.pack_length⟩,
    fun _ _ _ _ _ _ hne hunpack => pack_of_unpackChunk hne hunpack,
    fun s1 s2 s3 _ havail => unpackChunk_run s1 s2 s3 havail (by decide) (by decide),
    rfl⟩

/-! ### A chunk presented cut short (R151; assumption log, entry 14) -/

/-- The chunk decoder reports the number of the bytes it was given. -/
theorem length_of_truncatedChunk {bytes : List Byte} {n : Nat}
    (h : decodeChunk bytes = .error (.truncatedChunk n)) : n = bytes.length := by
  cases bytes with
  | nil =>
    cases h
    rfl
  | cons b0 rest =>
    simp only [decodeChunk] at h
    split at h
    · split at h <;> cases h
      exact Nat.add_comm _ _
    split at h
    · cases h
    split at h
    · cases h
    split at h
    · cases h
    split at h <;> cases h
    rfl

/-- Only fewer than four bytes can be cut short (`decodeChunk_four`). -/
theorem length_le_of_truncatedChunk {bytes : List Byte} {n : Nat}
    (h : decodeChunk bytes = .error (.truncatedChunk n)) : bytes.length ≤ 3 := by
  match bytes with
  | [] | [_] | [_, _] | [_, _, _] => simp
  | b0 :: b1 :: b2 :: b3 :: tail =>
    obtain ⟨i, hi⟩ := decodeChunk_four b0 b1 b2 b3 tail
    cases hi.symm.trans h

/-- In DECODE a chunk cut short raises UnknownTagError with the number of its bytes. -/
theorem State.takeRejected_truncated {s : State} (h : ReadyIn .decode s) (n : Nat) :
    s.takeRejected (.truncatedChunk n) = raised s .unknownTag (BitVec.ofNat 8 n) := by
  obtain ⟨hready, hmode⟩ := h
  have hrequired (m : Mode) (hm : requiredMode Op.decChunk = some m) : s.mode = m := hmode.trans (Option.some.inj hm)
  rw [State.takeRejected, gate_runs hready hrequired]
  rfl

/-- Settles O48: the decoder's count is the number of bytes (`length_of_truncatedChunk`), at most 3
(`length_le_of_truncatedChunk`), and the step takes the rejected request as `State.takeRejected_truncated` says. -/
theorem truncatedPresentationRaises : Obligations.TruncatedPresentationRaises := by
  intro s bytes rest n hready hpending hdecode
  obtain rfl : n = bytes.length := length_of_truncatedChunk hdecode
  refine ⟨rfl, length_le_of_truncatedChunk hdecode, ?_⟩
  rw [step_rejected hpending hdecode]
  exact congrArg _ (State.takeRejected_truncated (s := { s with pending := rest }) hready _)

end Sys2Proof.Machine
end

section
/-! The encoder step (spec/44_encoder_step.md R170 to R183): what ENC_PIXEL and ENC_FLUSH answer in ENCODE, in the bytes
and numbers of the claims. A run of repeats and the first pixel of an image are read off from the single commands. -/

namespace Sys2Proof.Machine

open Sys2Proof.Claims

/-! ### What the encoder emits (R174, R177 to R179) -/

/-- Closing a run of at most 61 emits 0xC0 and its length less 1 (R64, R174). -/
theorem closeRun_eq_openRunBytes {run : BitVec 6} (hbounded : run.toNat ≤ 61) : closeRun run = openRunBytes run := by
  by_cases hrun : run = 0
  · rw [closeRun, openRunBytes, if_pos hrun, if_pos hrun]
  · have hpos : run.toNat ≠ 0 := fun h => hrun (BitVec.eq_of_toNat_eq h)
    rw [closeRun, openRunBytes, if_neg hrun, if_neg hrun, Chunk.pack_run ⟨by omega, by omega⟩]

/-- The kind and ran bits of ENC_PIXEL as a number (R76). -/
theorem encR0_eq (k : Kind) (run : BitVec 6) :
    encR0 k (run != 0) = BitVec.ofNat 32 (k.bits.toNat + ranNumber run) := by
  rw [encR0, place_zero_or_bit _ (by decide), ranNumber]
  by_cases hrun : run = 0
  · rw [hrun]
    rfl
  · rw [if_pos (bne_iff_ne.2 hrun), if_neg hrun, add_comm]
    rfl

/-- The chunk chosen on a miss, in the numbers of the spec: its bytes and its kind code (R177 to R179). -/
theorem missChunk_eq (p q : Pixel) :
    missChunk p q = ((chooseDelta p q).pack, (chooseDelta p q).kind.bits.toNat) := by
  obtain ⟨hsmall, e⟩ | ⟨hsmall, hmed, e⟩ | ⟨hsmall, hmed, e⟩ := chooseDelta_cases p q <;> rw [e]
  · have hin := (diffSmallFits_iff _ _ _).1 hsmall
    rw [Chunk.pack_diffSmall hin]
    exact if_pos hin
  · have hin := (diffMedFits_iff _ _ _).1 hmed
    have hout := mt (diffSmallFits_iff _ _ _).2 (Bool.eq_false_iff.1 hsmall)
    rw [Chunk.pack_diffMed hin]
    exact (if_neg hout).trans (if_pos hin)
  · have hout := mt (diffSmallFits_iff _ _ _).2 (Bool.eq_false_iff.1 hsmall)
    have hout' := mt (diffMedFits_iff _ _ _).2 (Bool.eq_false_iff.1 hmed)
    exact (if_neg hout).trans (if_neg hout')

/-- The chunk of a changed pixel is no RUN (R171). -/
theorem chooseChunk_kind (p prev : Pixel) (hit : Bool) :
    (chooseChunk p prev hit).kind = .index ∨ (chooseChunk p prev hit).kind = .diffSmall ∨
      (chooseChunk p prev hit).kind = .diffMed ∨ (chooseChunk p prev hit).kind = .rgb := by
  cases hit with
  | true => exact .inl rfl
  | false =>
    obtain ⟨-, e⟩ | ⟨-, -, e⟩ | ⟨-, -, e⟩ := chooseDelta_cases p prev <;> simp only [chooseChunk, e]
    · exact .inr (.inl rfl)
    · exact .inr (.inr (.inl rfl))
    · exact .inr (.inr (.inr rfl))

/-- The response to a pixel that differs from PREV: the open run's bytes and then the chunk's, its kind and ran
(R172, R174). -/
def encodedChange (run : BitVec 6) (c : Chunk) : Response :=
  stream (openRunBytes run ++ c.pack) (BitVec.ofNat 32 (c.kind.bits.toNat + ranNumber run))

/-! ### The commands in ENCODE -/

section
variable {s : State} (h : ReadyIn .encode s)
include h

/-- A repeat that does not fill the run is counted and emits nothing (R173). -/
theorem exec_encPixel_counted (hrun : s.run.toNat ≤ 60) :
    exec (.encPixel s.prev) s = .next { s with run := s.run + 1, rsp := some (stream [] 0x7) } := by
  have hopen : s.run + 1 ≠ BitVec.ofNat 6 Config.runMax := by
    show s.run + 1 ≠ 62#6
    bv_omega
  rw [exec_encPixel h, encodePixel, if_pos (pixelsEqual_self _), encodeRepeat, if_neg hopen]
  rfl

/-- The 62nd repeat emits the run and clears RUN (R173). -/
theorem exec_encPixel_full (hrun : s.run.toNat = 61) :
    exec (.encPixel s.prev) s = .next { s with run := 0, rsp := some (stream [0xFD] 0xB) } := by
  have hfull : s.run + 1 = BitVec.ofNat 6 Config.runMax := by
    show s.run + 1 = 62#6
    bv_omega
  rw [exec_encPixel h, encodePixel, if_pos (pixelsEqual_self _), encodeRepeat, if_pos hfull]
  rfl

section
variable (hbounded : s.RunBounded) {p : Pixel}
include hbounded

/-- Any other pixel closes the open run, is probed, and its chosen chunk follows (R174 to R180). -/
theorem exec_encPixel_change (hne : p ≠ s.prev) :
    exec (.encPixel p) s = .next (answered { (s.probe p).2 with run := 0, prev := p }
      (encodedChange s.run (chooseChunk p s.prev (s.probe p).1))) := by
  have hlength := Nat.add_le_add (closeRun_length_le s.run) (chooseChunk p s.prev (s.probe p).1).pack_length_le
  rw [← List.length_append] at hlength
  rw [exec_encPixel h, encodePixel, if_neg (Bool.eq_false_iff.1 (pixelsEqual_of_ne hne)), encodeChange,
    State.respondBytes_eq_answered _ hlength, encR0_eq, closeRun_eq_openRunBytes hbounded]
  rfl

/-- A changed pixel that its slot holds is an INDEX byte, and the cache stays (R175). -/
theorem exec_encPixel_hit (hne : p ≠ s.prev) (hhit : s.cacheRead (slotOf p) = ⟨true, p⟩) :
    exec (.encPixel p) s = .next { s with
      run := 0, prev := p,
      rsp := some (stream (openRunBytes s.run ++ [BitVec.ofNat 8 (slotOf p).toNat])
        (BitVec.ofNat 32 (ranNumber s.run))) } := by
  have hbyte : (Chunk.index (pixHash p)).pack = [BitVec.ofNat 8 (slotOf p).toNat] := by
    rw [slotOf_eq_pixHash, ← indexByte_toNat, BitVec.ofNat_toNat, BitVec.setWidth_eq, Chunk.pack]
  have hr0 : (Chunk.index (pixHash p)).kind.bits.toNat + ranNumber s.run = ranNumber s.run := Nat.zero_add _
  rw [exec_encPixel_change h hbounded hne, State.probe_hit ((CacheEntry.holds_iff_eq _ p).2 hhit), chooseChunk,
    if_pos rfl, encodedChange, hbyte, hr0]
  rfl

/-- A changed pixel that its slot does not hold is inserted, and its delta or literal chunk follows (R176 to R180). -/
theorem exec_encPixel_miss (hne : p ≠ s.prev) (hmiss : s.cacheRead (slotOf p) ≠ ⟨true, p⟩) :
    exec (.encPixel p) s = .next (answered { s.insert p with run := 0, prev := p }
      (stream (openRunBytes s.run ++ (missChunk p s.prev).1)
        (BitVec.ofNat 32 ((missChunk p s.prev).2 + ranNumber s.run)))) := by
  have hholds := mt (CacheEntry.holds_iff_eq (s.cacheRead (pixHash p)) p).1 hmiss
  rw [exec_encPixel_change h hbounded hne, State.probe_miss (Bool.eq_false_of_not_eq_true hholds), missChunk_eq]
  rfl

end

end

/-- The insert of a changed pixel writes its slot alone (R113). -/
theorem slotWritten_encoded (s : State) (p : Pixel) (r : Response) :
    SlotWritten s (answered { s.insert p with run := 0, prev := p } r) p :=
  slotWritten_of_cacheRead (s.cacheRead_insert p)

/-- Settles O25: a repeat by `exec_encPixel_counted` or `exec_encPixel_full`, any other pixel by `exec_encPixel_hit` or
`exec_encPixel_miss`. -/
theorem encPixelFollowsThePriorityOrder : Obligations.EncPixelFollowsThePriorityOrder :=
  ⟨reads_pixel fun _ _ => rfl,
    fun _ h hrun => exec_encPixel_counted h hrun,
    fun _ h hrun => exec_encPixel_full h hrun,
    fun p s h hbounded hne => ⟨exec_encPixel_hit h hbounded hne, fun hmiss =>
      ⟨_, exec_encPixel_miss h hbounded hne hmiss, slotWritten_encoded s p _, rfl, rfl, rfl, rfl, rfl, rfl⟩⟩⟩

/-! ### Runs of repeats (R173) -/

/-- One repeat emits 0xFD when it fills the run, and leaves the rest in RUN. -/
theorem hostCommand_encPixel_repeat {s : State} (h : ReadyIn .encode s) (hbounded : s.RunBounded) :
    ∃ r run, hostCommand (.encPixel s.prev) s = some (r, { s with run := run, rsp := some r }) ∧
      r.bytes = List.replicate ((s.run.toNat + 1) / 62) 0xFD ∧ run.toNat = (s.run.toNat + 1) % 62 := by
  obtain hrun | hrun : s.run.toNat ≤ 60 ∨ s.run.toNat = 61 := Nat.le_succ_iff.1 hbounded
  · refine ⟨_, _, hostCommand_of_exec (exec_encPixel_counted h hrun) rfl rfl, ?_, by bv_omega⟩
    rw [Nat.div_eq_of_lt (by omega)]
    rfl
  · refine ⟨_, _, hostCommand_of_exec (exec_encPixel_full h hrun) rfl rfl, ?_, ?_⟩ <;> rw [hrun] <;> rfl

/-- Many repeats emit 0xFD for every run they fill, and leave the rest in RUN. -/
theorem encodePixels_repeat (k : Nat) {s : State} (h : ReadyIn .encode s) (hbounded : s.RunBounded) :
    ∃ run rsp, encodePixels (List.replicate k s.prev) s =
        some (List.replicate ((s.run.toNat + k) / 62) 0xFD, { s with run := run, rsp := rsp }) ∧
      run.toNat = (s.run.toNat + k) % 62 := by
  induction k generalizing s with
  | zero =>
    have hlt : s.run.toNat + 0 < 62 := Nat.lt_succ_of_le hbounded
    refine ⟨s.run, s.rsp, ?_, (Nat.mod_eq_of_lt hlt).symm⟩
    rw [Nat.div_eq_of_lt hlt]
    rfl
  | succ k ih =>
    obtain ⟨r, run, hcommand, hbytes, hrun⟩ := hostCommand_encPixel_repeat h hbounded
    have hle : run.toNat ≤ 61 := by omega
    obtain ⟨run', rsp', hrest, hrun'⟩ := ih (s := { s with run := run, rsp := some r }) h hle
    dsimp only at hrest hrun'
    refine ⟨run', rsp', encodePixels_cons_iff.2 ⟨r, _, _, hcommand, hrest, ?_⟩, by omega⟩
    have hsum : (s.run.toNat + (k + 1)) / 62 = (s.run.toNat + 1) / 62 + (run.toNat + k) / 62 := by omega
    rw [hbytes, List.replicate_append_replicate, hsum]

/-- Settles O26: `encodePixels_repeat`, whose last state differs from the first in RUN and the response alone. -/
theorem runOfRepeatsSplitsAt62 : Obligations.RunOfRepeatsSplitsAt62 := by
  intro k s h hbounded
  obtain ⟨run, rsp, hencode, hrun⟩ := encodePixels_repeat k h hbounded
  exact ⟨_, hencode, hrun, rfl, rfl, rfl, rfl, rfl⟩

/-! ### How many bytes (R183) -/

/-- The open run is closed by one byte, or none when no run is open. -/
theorem openRunBytes_length (run : BitVec 6) : (openRunBytes run).length = if run = 0 then 0 else 1 := by
  unfold openRunBytes
  split <;> rfl

section
variable (run : BitVec 6) (c : Chunk)

/-- The ran bit counts 8 above the kind code (R76). -/
theorem encodedChange_r0_toNat : (encodedChange run c).r0.toNat = c.kind.bits.toNat + ranNumber run := by
  have hkind := c.kind.bits.isLt
  have hran : ranNumber run ≤ 8 := by
    unfold ranNumber
    split <;> decide
  exact (BitVec.toNat_ofNat ..).trans (Nat.mod_eq_of_lt (by omega))

/-- r0[2:0] is the chunk's kind code (R76). -/
theorem encodedChange_kind : bitsOf (encodedChange run c).r0 2 0 = c.kind.bits.toNat := by
  have hkind := c.kind.bits.isLt
  rw [bitsOf, encodedChange_r0_toNat, ranNumber]
  split <;> omega

/-- r0[3] says that an open run was closed (R76). -/
theorem encodedChange_ran : bitsOf (encodedChange run c).r0 3 3 = if run = 0 then 0 else 1 := by
  have hkind := c.kind.bits.isLt
  rw [bitsOf, encodedChange_r0_toNat, ranNumber]
  split <;> omega

/-- The bytes are the chunk's, and one more when an open run was closed (R183). -/
theorem encodedChange_nout :
    (encodedChange run c).nout.toNat = c.kind.length + bitsOf (encodedChange run c).r0 3 3 := by
  have hchunk := c.pack_length_le
  rw [c.pack_length] at hchunk
  rw [encodedChange_ran, encodedChange, stream, BitVec.toNat_ofNat, List.length_append, openRunBytes_length,
    c.pack_length]
  split <;> omega

end

/-- Settles O29: the two repeats by their responses; a change by `exec_encPixel_change`, whose chunk has its kind's
length and one of four kinds. -/
theorem encPixelOutputBounds : Obligations.EncPixelOutputBounds := by
  intro p s h hbounded
  by_cases hp : p = s.prev
  · subst hp
    obtain hrun | hrun : s.run.toNat ≤ 60 ∨ s.run.toNat = 61 := Nat.le_succ_iff.1 hbounded
    · exact ⟨_, _, exec_encPixel_counted h hrun, rfl, rfl, .inl ⟨rfl, rfl, rfl, rfl, hrun⟩⟩
    · exact ⟨_, _, exec_encPixel_full h hrun, rfl, rfl, .inr (.inl ⟨rfl, rfl, rfl, rfl, hrun⟩)⟩
  · have hnout := encodedChange_nout s.run (chooseChunk p s.prev (s.probe p).1)
    have hkind := encodedChange_kind s.run (chooseChunk p s.prev (s.probe p).1)
    refine ⟨_, _, exec_encPixel_change h hbounded hp, rfl, rfl, .inr (.inr ⟨hp, encodedChange_ran _ _, ?_⟩)⟩
    obtain hk | hk | hk | hk := chooseChunk_kind p s.prev (s.probe p).1 <;> rw [hk] at hnout hkind
    · exact .inl ⟨hkind, hnout⟩
    · exact .inr (.inl ⟨hkind, hnout⟩)
    · exact .inr (.inr (.inl ⟨hkind, hnout⟩))
    · exact .inr (.inr (.inr ⟨hkind, hnout⟩))

/-! ### ENC_FLUSH (R181) and the first pixel (R182) -/

/-- Settles O28: `exec_encFlush`, whose bytes are those of the open run. -/
theorem flushClosesOpenRun : Obligations.FlushClosesOpenRun := by
  refine ⟨fun _ _ => rfl, fun s h hbounded => ?_⟩
  rw [exec_encFlush h, State.respondBytes_eq_answered _ ((closeRun_length_le s.run).trans (by decide)),
    closeRun_eq_openRunBytes hbounded]
  rfl

/-- After START no slot holds a pixel (R33, R210). -/
theorem State.started_cacheRead_ne (s : State) (m : Mode) (slot : SlotIdx) (p : Pixel) :
    (s.started m).cacheRead slot ≠ ⟨true, p⟩ := by
  simp [State.started]

/-- Settles O27: after START the block has PREV = (0,0,0), no open run and empty slots, so that (0,0,0) is a counted
repeat and any other pixel a miss; and DEC_CHUNK of 0xC0 is the RUN chunk of one pixel. -/
theorem firstPixelIsComparedWithTheSeed : Obligations.FirstPixelIsComparedWithTheSeed := by
  refine ⟨fun s => ?_, fun p s hne => ?_, fun s => ?_⟩
  · exact ⟨_, _, exec_start s rfl, exec_encPixel_counted (s := s.started .encode) ⟨rfl, rfl⟩ (Nat.zero_le _),
      rfl, rfl, rfl⟩
  · exact ⟨_, _, exec_start s rfl, exec_encPixel_miss (s := s.started .encode) ⟨rfl, rfl⟩ (Nat.zero_le _) hne
      (s.started_cacheRead_ne _ _ p), rfl, rfl, slotWritten_encoded _ p _, rfl⟩
  · have hr0 : decR0 .run 1 = 0x4B := by decide
    have hr1 : place 0 Config.seedPrev.bits = 0 := by decide
    exact ⟨_, _, exec_start s rfl, exec_presentChunk_pack (d := s.started .decode) ⟨rfl, rfl⟩ (c := .run 1) rfl [],
      rfl, congrArg some (congrArg₂ words hr0 hr1)⟩

end Sys2Proof.Machine
end

section
/-! The decoder step (spec/45_decoder_step.md R190 to R202): what DEC_CHUNK and the chunk rows answer in DECODE, in the
claims' terms, and whole images. -/

namespace Sys2Proof.Machine

open Sys2Proof.Claims

/-- Settles O49: the stream of ENCODE_IMAGE gives a decoder after START exactly the pixels (`encodeImage_decodes`), and
DECODE_IMAGE follows it (`decodeImage_of_streamDecodes`), here with nothing behind the stream. -/
theorem encodeThenDecodeImageIsIdentity : Obligations.EncodeThenDecodeImageIsIdentity := by
  intro pixels s d
  obtain ⟨bytes, s', d', hencode, hstream⟩ := encodeImage_decodes pixels s d
  have hdecode := decodeImage_of_streamDecodes hstream []
  rw [List.append_nil] at hdecode
  exact ⟨bytes, s', d', hencode, hdecode⟩

/-! ### The end of a decoder step (R198 to R200) -/

/-- `r0` of DEC_CHUNK: the kind's number, 8 for each byte of the chunk, 64 for each pixel (R76). -/
theorem decR0_eq (k : Kind) {count : Nat} (hcount : count < 128) :
    decR0 k count = BitVec.ofNat 32 (k.bits.toNat + 8 * k.length + 64 * count) := by
  have hlow : (place 0 k.bits ||| place 3 (BitVec.ofNat 3 k.length)).toNat = k.bits.toNat + 8 * k.length := by
    cases k <;> rfl
  have hbound : k.bits.toNat + 8 * k.length < 2 ^ 6 := by cases k <;> decide
  have hhigh : (place 6 (BitVec.ofNat 7 count)).toNat = 64 * count := by
    rw [place_toNat _ _ (by decide), BitVec.toNat_ofNat, Nat.mod_eq_of_lt hcount]
    exact mul_comm count 64
  have hsum := or_toNat _ _ 6 (hlow ▸ hbound) (hhigh ▸ Nat.dvd_mul_right 64 count)
  rw [hlow, hhigh, ← decR0] at hsum
  rw [← BitVec.setWidth_eq (decR0 k count), ← BitVec.ofNat_toNat, hsum]

/-- The response of a decoder step in the claims' numbers (R76, R77). -/
theorem State.decoded_rsp_eq (s : State) (k : Kind) (p : Pixel) {count : Nat} (hcount : count < 128) :
    (s.decoded k p count).rsp =
      some (words (BitVec.ofNat 32 (k.bits.toNat + 8 * k.length + 64 * count)) (BitVec.ofNat 32 (pixelNumber p))) := by
  rw [State.decoded_rsp, decR0_eq k hcount, place_pixel]
  rfl

section
variable (s : State) (k : Kind)

/-- A decoder step that writes no slot: RUN and INDEX (R193, R194). -/
theorem decodes_decoded (p : Pixel) {count : Nat} (hcount : count < 128) :
    Decodes s k.bits.toNat k.length count p false (.next (s.decoded k p count)) :=
  ⟨_, rfl, rfl, s.cacheRead_decoded k p count, rfl, rfl, rfl, rfl, s.decoded_rsp_eq k p hcount⟩

/-- A decoder step that writes its pixel to the cache: the DIFF chunks and RGB (R192, R198). -/
theorem decodes_inserted (p : Pixel) :
    Decodes s k.bits.toNat k.length 1 p true (.next ((s.insert p).decoded k p 1)) :=
  ⟨_, rfl, rfl, slotWritten_of_cacheRead (s.cacheRead_insert p), rfl, rfl, rfl, rfl,
    (s.insert p).decoded_rsp_eq k p (by decide)⟩

/-- The mask of ChannelRangeError is the claims' number (R197). -/
theorem channelMask_eq_rangeMask (r g b : Int) : channelMask r g b = BitVec.ofNat 8 (rangeMask r g b) := by
  rw [← BitVec.setWidth_eq (channelMask r g b), ← BitVec.ofNat_toNat, channelMask_toNat]
  rfl

/-- A DIFF chunk adds its deltas to PREV on integers, or raises ChannelRangeError (R195 to R198). -/
theorem addsDeltas_decodeDelta (dr dg db : Int) :
    AddsDeltas s k.bits.toNat k.length dr dg db (.next (decodeDelta k dr dg db s)) := by
  refine ⟨fun ⟨hr, hg, hb⟩ => ?_, fun hout => ?_⟩
  · obtain ⟨q, hq, hqr, hqg, hqb⟩ := reconstruct_ok (prev := s.prev) (dr := dr) (dg := dg) (db := db) (by omega)
      (by omega) (by omega)
    refine ⟨q, hqr, hqg, hqb, ?_⟩
    simp only [decodeDelta, hq]
    exact decodes_inserted s k q
  · rw [← channelMask_eq_rangeMask]
    simp only [decodeDelta, reconstruct_error (prev := s.prev) (dr := dr) (dg := dg) (db := db) (by omega)]
    rfl

end

/-! ### The decoder step by the kind of its chunk (R191 to R196) -/

section
variable (s : State)

theorem decodes_run {n : Nat} (hn : n < 128) : Decodes s 3 1 n s.prev false (.next (decodeStep (.run n) s)) :=
  decodes_decoded s .run s.prev hn

theorem readsSlot_index (slot : SlotIdx) : ReadsSlot s slot (.next (decodeStep (.index slot) s)) := by
  refine ⟨fun hvalid => ?_, fun hempty => ?_⟩
  · rw [decodeStep, if_pos hvalid]
    exact decodes_decoded s .index _ (by decide)
  · rw [decodeStep, if_neg (Bool.eq_false_iff.1 hempty), BitVec.ofNat_toNat]
    rfl

theorem addsDeltas_diffSmall (rr gg bb : BitVec 2) :
    AddsDeltas s 1 1 ((rr.toNat : Int) - 2) ((gg.toNat : Int) - 2) ((bb.toNat : Int) - 2)
      (.next (decodeStep (diffSmallFields rr gg bb) s)) :=
  addsDeltas_decodeDelta s .diffSmall _ _ _

theorem addsDeltas_diffMed (g : BitVec 6) (u v : BitVec 4) :
    AddsDeltas s 2 2 (((u.toNat : Int) - 8) + ((g.toNat : Int) - 32)) ((g.toNat : Int) - 32)
      (((v.toNat : Int) - 8) + ((g.toNat : Int) - 32)) (.next (decodeStep (diffMedFields g u v) s)) :=
  addsDeltas_decodeDelta s .diffMed _ _ _

theorem decodes_rgb (p : Pixel) : Decodes s 4 4 1 p true (.next (decodeStep (.rgb p) s)) :=
  decodes_inserted s .rgb p

end

/-- Settles O32: in DECODE a chunk row is the decoder step of its stored fields (`decodes_rgb` and its fellows). -/
theorem chunkRowsDecodeTheirFields : Obligations.ChunkRowsDecodeTheirFields := by
  intro s h
  refine ⟨fun p => ?_, fun slot => ?_, fun rr gg bb => ?_, fun g u v => ?_, fun n => ?_⟩ <;> rw [exec_readyIn h rfl rfl]
  · exact decodes_rgb s p
  · exact readsSlot_index s slot
  · exact addsDeltas_diffSmall s rr gg bb
  · exact addsDeltas_diffMed s g u v
  · exact decodes_run s (by omega)

/-! ### DEC_CHUNK behind its gate (R191) -/

section
variable {s : State} {s0 s1 s2 s3 : Byte} {avail : BitVec 3} (h : ReadyIn .decode s)
include h

/-- A chunk that Unpack reads is executed. -/
theorem exec_decChunk_ok {c : Chunk} (hunpack : unpackChunk s0 s1 s2 s3 (availNumber avail) = .ok c) :
    exec (.decChunk s0 s1 s2 s3 avail) s = .next (decodeStep c s) := by
  rw [exec_readyIn h rfl rfl, ruleOf, decChunkRule, availOf_eq_availNumber, hunpack]

/-- A chunk that Unpack rejects is an UnknownTagError, and only ERR is written (R151, R237). -/
theorem exec_decChunk_error {info : Byte} (hunpack : unpackChunk s0 s1 s2 s3 (availNumber avail) = .error info) :
    exec (.decChunk s0 s1 s2 s3 avail) s = .next (raised s .unknownTag info) := by
  rw [exec_readyIn h rfl rfl, ruleOf, decChunkRule, availOf_eq_availNumber, hunpack]
  rfl

/-- A RUN byte gives copies of PREV, 64 for 0xFF (R68, R193). -/
theorem exec_decChunk_run (hlo : 0xC0 ≤ s0.toNat) (hrgb : s0.toNat ≠ 0xFE) (hn : 1 ≤ availNumber avail) :
    Decodes s 3 1 (s0.toNat - 0xC0 + 1) s.prev false (exec (.decChunk s0 s1 s2 s3 avail) s) := by
  rw [exec_decChunk_ok h (unpackChunk_run s1 s2 s3 hn hlo hrgb)]
  exact decodes_run s (by omega)

end

/-- Settles O31: by the first byte, the chunk that Unpack reads (`unpackChunk_index` and its fellows) and its decoder
step (`readsSlot_index` and its fellows); with too few bytes, `unpackChunk_truncated`. -/
theorem decChunkDecodesOneChunk : Obligations.DecChunkDecodesOneChunk := by
  refine ⟨reads_stream fun _ _ => rfl, fun s0 s1 s2 s3 avail s h =>
    ⟨fun ⟨hlo, hrgb⟩ hn => exec_decChunk_run h hlo hrgb hn, fun hindex hn => ?_, fun ⟨hlo, hhi⟩ hn => ?_,
      fun ⟨hlo, hhi⟩ hn => ?_, fun hrgb hn => ?_, fun hshort => ?_, fun ⟨hlo, hrgb⟩ hn => ?_⟩⟩
  · have hslot : low6 s0 = BitVec.ofNat 6 s0.toNat := BitVec.eq_of_toNat_eq (low6_toNat s0)
    rw [exec_decChunk_ok h (unpackChunk_index s1 s2 s3 hn hindex), hslot]
    exact readsSlot_index s _
  · obtain ⟨hr, hg, hb⟩ := dsFields_toNat s0
    rw [exec_decChunk_ok h (unpackChunk_diffSmall s1 s2 s3 hn hlo hhi), ← hr, ← hg, ← hb]
    exact addsDeltas_diffSmall s _ _ _
  · have hunpack := unpackChunk_diffMed s1 s2 s3 (Nat.one_le_of_lt hn) hlo hhi
    rw [if_neg (Nat.not_lt.2 hn)] at hunpack
    have hg : s0.toNat - 0x80 = (low6 s0).toNat := by
      rw [low6_toNat]
      omega
    rw [exec_decChunk_ok h hunpack, hg, ← high_nibble_toNat, ← low_nibble_toNat]
    exact addsDeltas_diffMed s _ _ _
  · have hunpack := unpackChunk_rgb s1 s2 s3 (Nat.one_le_of_lt hn) hrgb
    rw [if_neg (Nat.not_lt.2 hn)] at hunpack
    rw [exec_decChunk_ok h hunpack]
    exact decodes_rgb s _
  · exact exec_decChunk_error h (unpackChunk_truncated s1 s2 s3 hshort)
  · exact ⟨_, exec_start s rfl, exec_decChunk_run (s := s.started .decode) ⟨rfl, rfl⟩ hlo hrgb hn⟩

end Sys2Proof.Machine
end

section
/-! The control commands (spec/46_control.md R210 to R215, spec/60_exceptions.md R237 to R242): START and STATE_READ,
what the gate refuses or makes an error, and what the decoder makes of a record that is no legal command. -/

namespace Sys2Proof.Machine

open Sys2Proof.Claims

/-! ### Records that are no legal command (R73, R212) -/

/-- START's mode operand is the reserved one when a[1:0] is the number 3 (R210). -/
theorem fieldAt_eq_three_iff (a : Word) : fieldAt a 0 2 = 3 ↔ bitsOf a 1 0 = 3 := by
  rw [BitVec.toNat_eq, bitsOf_eq_fieldAt]
  rfl

/-- START takes its mode from a[1:0], and is rejected when that is 3 (R210, R212). -/
theorem decode_start (a b : Word) : decode (.command ⟨0x01, a, b⟩) =
    if bitsOf a 1 0 = 3 then .error .reservedStartMode else .ok (.start (BitVec.ofNat 2 (bitsOf a 1 0))) := by
  simp only [← fieldAt_eq_three_iff, ofNat_bitsOf]
  rfl

/-- An op without a row in R73 is rejected by its name (R212). -/
theorem decode_unassigned {op : BitVec 5} (hop : op ∈ unassignedOps) (a b : Word) :
    decode (.command ⟨op, a, b⟩) = .error (.unassignedOp op) := by
  simp only [unassignedOps, List.mem_cons, List.not_mem_nil, or_false] at hop
  obtain rfl | rfl | rfl | rfl | rfl | rfl | rfl | rfl | rfl | rfl | rfl | rfl | rfl | rfl := hop <;> rfl

/-- Every other op has a row (R73). -/
theorem opAssigned_of_not_mem : ∀ op : BitVec 5, op ∉ unassignedOps → opAssigned op = true := by
  decide

/-- The decoder rejects a record for one of two reasons: its op is unassigned, or it is START with the mode 3 (R212). -/
theorem decode_command_error_iff {op : BitVec 5} {a b : Word} {e : DecodeReject} :
    decode (.command ⟨op, a, b⟩) = .error e ↔
      (op ∈ unassignedOps ∧ e = .unassignedOp op) ∨ ((op = 0x01 ∧ bitsOf a 1 0 = 3) ∧ e = .reservedStartMode) := by
  constructor
  · intro h
    by_cases hop : op ∈ unassignedOps
    · rw [decode_unassigned hop] at h
      cases h
      exact .inl ⟨hop, rfl⟩
    · have hassigned := opAssigned_of_not_mem op hop
      simp only [decode, decodeCommand] at h
      split at h
      · split at h
        · next hmode =>
          cases h
          exact .inr ⟨⟨rfl, (fieldAt_eq_three_iff a).1 hmode⟩, rfl⟩
        · cases h
      all_goals cases h
      simp only [opAssigned, Bool.or_eq_true, beq_iff_eq] at hassigned
      tauto
  · rintro (⟨hop, rfl⟩ | ⟨⟨rfl, hmode⟩, rfl⟩)
    · exact decode_unassigned hop a b
    · rw [decode_start, if_pos hmode]

/-- A step takes a rejected record as an illegal command with the record's op, at the gate (R215). -/
theorem State.takeRejected_command {op : BitVec 5} {a b : Word} {e : DecodeReject}
    (hdecode : decode (.command ⟨op, a, b⟩) = .error e) (s : State) :
    s.takeRejected e = gate op false (fun t => t) s := by
  obtain ⟨-, rfl⟩ | ⟨⟨rfl, -⟩, rfl⟩ := decode_command_error_iff.1 hdecode <;> rfl

/-- No rejected record has the op of a command that runs while the block is faulted (R214). -/
theorem runsWhileFaulted_of_decode_error {op : BitVec 5} {a b : Word} {e : DecodeReject}
    (hdecode : decode (.command ⟨op, a, b⟩) = .error e) : runsWhileFaulted op false = false := by
  have hall : ∀ op ∈ unassignedOps, runsWhileFaulted op false = false := by decide
  obtain ⟨hop, -⟩ | ⟨⟨rfl, -⟩, -⟩ := decode_command_error_iff.1 hdecode
  · exact hall op hop
  · rfl

/-! ### The faulted block (R214, R242) -/

/-- Only STATE_READ, CACHE_READ and a legal START run while the block is faulted. -/
theorem runsWhileFaulted_eq_false {i : Instr} (hread : i ≠ .stateRead) (hcache : ∀ slot, i ≠ .cacheRead slot)
    (hstart : ¬ LegalStart i) : runsWhileFaulted (opOf i) (legalOf i) = false := by
  cases i with
  | start m =>
    have hm : m = 3 := by
      by_contra hne
      exact hstart ⟨m, rfl, hne⟩
    subst hm
    rfl
  | stateRead => exact absurd rfl hread
  | cacheRead slot => exact absurd rfl (hcache slot)
  | _ => rfl

/-- What does not run while the block is faulted answers the latched error and changes nothing. -/
theorem exec_refused {i : Instr} {s : State} (hfaulted : ¬ Ready s)
    (hruns : runsWhileFaulted (opOf i) (legalOf i) = false) :
    exec i s = .next (answered s (errorResponse s.err.code s.err.info)) := by
  rw [exec_gate, gate_refused hfaulted hruns]
  rfl

/-- Settles O34: a command is refused by `exec_refused`, a rejected record at the gate that `State.takeRejected_command`
puts before it. -/
theorem faultedBlockRefuses : Obligations.FaultedBlockRefuses := by
  refine ⟨fun i s _ hfaulted hread hcache hstart =>
    exec_refused hfaulted (runsWhileFaulted_eq_false hread hcache hstart), fun s c rest e hfaulted hpending hdecode => ?_⟩
  rw [step_rejected hpending hdecode, State.takeRejected_command hdecode]
  exact congrArg _ (gate_refused (s := { s with pending := rest }) hfaulted (runsWhileFaulted_of_decode_error hdecode))

/-! ### START (R210) -/

theorem modeNumber_of_modeOf {m : BitVec 2} {mode : Mode} (hm : modeOf m = some mode) : modeNumber mode = m.toNat := by
  revert m mode
  decide

/-- START with the reserved mode is an IllegalCommand (R212). -/
theorem exec_start_reserved {s : State} (hready : Ready s) :
    exec (.start 3) s = .next (raised s .illegalCommand 0x01) := by
  rw [exec_gate]
  exact congrArg _ (gate_illegal hready)

/-- Settles O2: `decode_start` for the record; a legal mode by `exec_start`, the reserved one by `exec_start_reserved`
or, while faulted, `exec_refused`. -/
theorem startBeginsFreshImage : Obligations.StartBeginsFreshImage := by
  refine ⟨decode_start, fun s m hm => ?_, fun s hready => exec_start_reserved hready,
    fun s hfaulted => exec_refused hfaulted rfl⟩
  obtain ⟨mode, hmode⟩ := modeOf_of_ne_three hm
  exact ⟨_, exec_start s hmode, modeNumber_of_modeOf hmode, rfl, rfl, rfl, s.cacheRead_startImage mode, rfl, rfl⟩

/-! ### STATE_READ (R211) -/

theorem modeNumber_eq_bits (mode : Mode) : modeNumber mode = mode.bits.toNat := by
  cases mode <;> rfl

theorem errNumber_eq_bits (code : ErrCode) : errNumber code = code.bits.toNat := by
  cases code <;> rfl

/-- The fields of STATE_READ's first word: PREV, RUN, and zeros above (R76). -/
theorem stateReadR0_fields (s : State) : fieldAt (stateReadR0 s) 0 24 = s.prev.bits ∧
    fieldAt (stateReadR0 s) 24 6 = s.run ∧ fieldAt (stateReadR0 s) 30 2 = 0 := by
  simp [stateReadR0, fieldAt_or, place_at, place_apart]

/-- The fields of STATE_READ's second word: MODE, ERR.code, ERR.info, and zeros above (R76). -/
theorem stateReadR1_fields (s : State) : fieldAt (stateReadR1 s) 0 2 = s.mode.bits ∧
    fieldAt (stateReadR1 s) 2 3 = s.err.code.bits ∧ fieldAt (stateReadR1 s) 5 8 = s.err.info ∧
    fieldAt (stateReadR1 s) 13 19 = 0 := by
  simp [stateReadR1, fieldAt_or, place_at, place_apart]

/-- Settles O8: STATE_READ runs in every state (`exec_alwaysRuns`), and its words hold the registers
(`stateReadR0_fields`, `stateReadR1_fields`). -/
theorem stateReadReturnsRegisters : Obligations.StateReadReturnsRegisters := by
  refine ⟨fun _ _ => rfl, fun s => ⟨stateReadR0 s, stateReadR1 s, exec_alwaysRuns s rfl, ?_⟩⟩
  obtain ⟨hprev, hrun, htop0⟩ := stateReadR0_fields s
  obtain ⟨hmode, hcode, hinfo, htop1⟩ := stateReadR1_fields s
  simp [bitsOf_eq_fieldAt, hprev, hrun, htop0, hmode, hcode, hinfo, htop1, modeNumber_eq_bits, errNumber_eq_bits,
    pixel_bits_toNat, pixelNumber]

/-! ### The wrong mode (R213, R238) -/

/-- The gate requires of every instruction the mode and reports the op that the claims name. -/
theorem modeRequired_eq (i : Instr) :
    modeRequired i = (requiredMode (opOf i)).map fun mode => (mode, (opOf i).setWidth 8) := by
  cases i <;> rfl

theorem legalOf_of_modeRequired {i : Instr} {required : Mode × Byte} (h : modeRequired i = some required) :
    legalOf i = true := by
  cases i with
  | start m => cases h
  | _ => rfl

/-- The response given is there, and is no ModeError. -/
def State.NoModeError (t : State) : Prop := ∃ r, t.rsp = some r ∧ r.err ≠ .modeError

theorem State.raise_noModeError (s : State) {code : ErrCode} (info : Byte) (hcode : code ≠ .modeError) :
    (s.raise code info).NoModeError :=
  ⟨_, rfl, hcode⟩

theorem State.respondWords_noModeError (s : State) (r0 r1 : Word) : (s.respondWords r0 r1).NoModeError :=
  ⟨_, rfl, nofun⟩

theorem packOrRaise_noModeError (op : BitVec 5) (fits : Bool) (c : Chunk) (s : State) :
    (packOrRaise op fits c s).NoModeError := by
  cases fits with
  | true =>
    rw [packOrRaise_answered rfl]
    exact ⟨_, rfl, nofun⟩
  | false => exact s.raise_noModeError _ (by decide)

theorem unpackRule_noModeError (s0 s1 s2 s3 : Byte) (avail : BitVec 3) (s : State) :
    (unpackRule s0 s1 s2 s3 avail s).NoModeError := by
  unfold unpackRule
  split
  · exact s.raise_noModeError _ (by decide)
  · exact s.respondWords_noModeError _ _

/-- The rule of a legal command that requires no mode never raises ModeError. -/
theorem ruleOf_noModeError {i : Instr} (hany : modeRequired i = none) (hlegal : legalOf i = true) (s : State) :
    (ruleOf i s).NoModeError := by
  cases i with
  | start m =>
    obtain ⟨mode, h⟩ := Option.isSome_iff_exists.1 hlegal
    simp only [ruleOf, h]
    exact State.respondWords_noModeError _ _ _
  | stateRead => exact State.respondWords_noModeError _ _ _
  | cacheRead slot => exact State.respondWords_noModeError _ _ _
  | pixEq p q => exact State.respondWords_noModeError _ _ _
  | pixHash p => exact State.respondWords_noModeError _ _ _
  | pixDelta p q => exact State.respondWords_noModeError _ _ _
  | packRun n => exact packOrRaise_noModeError ..
  | packIndex slot => exact packOrRaise_noModeError ..
  | packDiffSmall dr dg db => exact packOrRaise_noModeError ..
  | packDiffMed dg u v => exact packOrRaise_noModeError ..
  | packRgb p => exact packOrRaise_noModeError ..
  | unpack s0 s1 s2 s3 avail => exact unpackRule_noModeError ..
  | _ => cases hany

/-- A command that requires no mode answers a block that is not faulted without ModeError. -/
theorem exec_noModeError {i : Instr} {s t : State} (hany : modeRequired i = none) (hready : Ready s)
    (hexec : exec i s = .next t) : t.NoModeError := by
  obtain ⟨hf, -, -⟩ | ⟨hf, -, -⟩ | ⟨-, -, rfl⟩ | ⟨-, -, ⟨mode, hmode, -⟩, -⟩ | ⟨-, hlegal, -, rfl⟩ := exec_cases hexec
  · exact absurd hready hf
  · exact absurd hready hf
  · exact s.raise_noModeError _ (by decide)
  · rw [modeRequired_eq, hmode] at hany
    cases hany
  · exact ruleOf_noModeError hany hlegal s

/-- Settles O35: a command outside its mode by `exec_wrongMode`, the claims' table of modes being the gate's
(`modeRequired_eq`); any other one by `exec_noModeError`. -/
theorem wrongModeRaisesModeError : Obligations.WrongModeRaisesModeError := by
  refine ⟨fun i s mode op _ hrequired hready hmode => ?_, fun i s hany hready => ?_⟩
  · have hlegal := legalOf_of_modeRequired hrequired
    rw [modeRequired_eq, Option.map_eq_some_iff] at hrequired
    obtain ⟨mode', hgate, heq⟩ := hrequired
    cases heq
    exact exec_wrongMode hready hlegal hgate hmode
  · obtain ⟨t, hexec⟩ := exec_next i s
    obtain ⟨r, hrsp, herr⟩ := exec_noModeError hany hready hexec
    exact ⟨t, r, hexec, hrsp, herr⟩

/-! ### Illegal commands and ignored operand bits (R212, R239, R74) -/

/-- A step that takes a record with an unassigned op, or START with the mode 3, raises IllegalCommand. -/
theorem step_illegal {op : BitVec 5} {a b : Word} {s : State} {rest : List HostRequest} (hready : Ready s)
    (hpending : s.pending = .command ⟨op, a, b⟩ :: rest)
    (hillegal : op ∈ unassignedOps ∨ (op = 0x01 ∧ bitsOf a 1 0 = 3)) :
    step s = .next (raised { s with pending := rest } .illegalCommand (op.setWidth 8)) := by
  obtain ⟨e, hdecode⟩ : ∃ e, decode (.command ⟨op, a, b⟩) = .error e := by
    obtain hop | hstart := hillegal
    · exact ⟨_, decode_unassigned hop a b⟩
    · exact ⟨_, decode_command_error_iff.2 (.inr ⟨hstart, rfl⟩)⟩
  rw [step_rejected hpending hdecode, State.takeRejected_command hdecode]
  exact congrArg _ (gate_illegal (s := { s with pending := rest }) hready)

/-- The mask of the bits that START lists keeps its mode operand. -/
theorem bitsOf_and_three (a : Word) : bitsOf (a &&& 3) 1 0 = bitsOf a 1 0 := by
  have hmask : (fieldAt a 0 2).setWidth 32 = a &&& 3 := fieldAt_low_setWidth a 2
  rw [← hmask, bitsOf_eq_fieldAt, bitsOf_eq_fieldAt, fieldAt_setWidth _ (by decide)]

/-- The decoder does not look at the operand bits that no layout lists: an instruction it reads is that of its own
canonical record, and what makes it reject a record is the op and the listed a[1:0] of START. -/
theorem decode_unlisted (op : BitVec 5) (a b : Word) :
    decode (.command ⟨op, a &&& listedA op, b &&& listedB op⟩) = decode (.command ⟨op, a, b⟩) := by
  cases hdecode : decode (.command ⟨op, a, b⟩) with
  | ok i =>
    obtain ⟨hwf, hencode⟩ := decodeCommand_canonical hdecode
    rw [← hencode, decode_encode i hwf]
  | error e =>
    refine decode_command_error_iff.2 ((decode_command_error_iff.1 hdecode).imp_right ?_)
    rintro ⟨⟨rfl, hmode⟩, he⟩
    exact ⟨⟨rfl, (bitsOf_and_three a).trans hmode⟩, he⟩

/-- A step looks at a request through the decoder only. -/
theorem step_congr_decode {r r' : HostRequest} (hdecode : decode r = decode r') (s : State) (rest : List HostRequest) :
    step { s with pending := r :: rest } = step { s with pending := r' :: rest } := by
  simp only [step, State.fetch, hdecode]

/-- Settles O36: `step_illegal`, and the decoder ignores unlisted bits (`decode_unlisted`). -/
theorem unassignedOpIsIllegal : Obligations.UnassignedOpIsIllegal := by
  refine ⟨fun op a b s rest hready hpending hillegal => ?_, fun op a b s rest => ?_⟩
  · rw [BitVec.ofNat_toNat]
    exact step_illegal hready hpending hillegal
  · exact step_congr_decode (decode_unlisted op a b).symm s rest

end Sys2Proof.Machine
end

section
/-! Reset (spec/70_reset_and_hazards.md R260, R261): the state it leaves, and that START IDLE leaves the same one. -/

namespace Sys2Proof.Machine

/-- A step that takes the host's reset leaves the reset state, with the host's later requests queued (R260). -/
theorem step_reset {s : State} {rest : List HostRequest} (hpending : s.pending = .reset :: rest) :
    step s = .next (State.hostReset { s with pending := rest }) :=
  step_rejected hpending rfl

theorem State.reset_slot_empty (slot : SlotIdx) : (State.reset.cacheRead slot).valid = false := by
  rw [State.cacheRead_reset]
  rfl

theorem State.hostReset_slot_empty (s : State) (slot : SlotIdx) : (s.hostReset.cacheRead slot).valid = false :=
  State.reset_slot_empty slot

theorem State.startImage_slot_empty (s : State) (m : Mode) (slot : SlotIdx) :
    ((s.startImage m).cacheRead slot).valid = false := by
  rw [State.cacheRead_startImage]

/-- Caches that are empty in every slot show the host the same. -/
theorem State.sameCache_of_empty {s t : State} (hs : ∀ slot, (s.cacheRead slot).valid = false)
    (ht : ∀ slot, (t.cacheRead slot).valid = false) : s.SameCache t := by
  intro slot
  simp [hs slot, ht slot]

/-- The host cannot tell a reset block from one that START IDLE re-initialised, but by the response (R261). -/
theorem State.hostReset_sameObservable_startIdle (s : State) (r0 r1 : Word) :
    s.hostReset.SameObservable ((s.startImage .idle).respondWords r0 r1) where
  prev := rfl
  run := rfl
  mode := rfl
  err := rfl
  cache := State.sameCache_of_empty s.hostReset_slot_empty (s.startImage_slot_empty .idle)
  pending := rfl

/-- Settles O3: `step_reset` and `exec_start`, whose states `State.hostReset_sameObservable_startIdle` compares. -/
theorem resetAndStartIdleAgree : Obligations.ResetAndStartIdleAgree := fun _ _ hpending =>
  ⟨_, _, step_reset hpending, exec_start _ rfl, State.hostReset_sameObservable_startIdle _ 0 0,
    fun slot => ⟨State.hostReset_slot_empty _ slot, State.startImage_slot_empty _ .idle slot⟩, rfl, rfl⟩

/-- Settles O1: the registers by their reset values, the slots by `State.reset_slot_empty`; a host's reset by
`step_reset`. -/
theorem resetLeavesIdleEmptyBlock : Obligations.ResetLeavesIdleEmptyBlock :=
  ⟨⟨rfl, rfl, rfl, rfl, rfl, State.reset_slot_empty⟩, fun _ _ hpending =>
    ⟨_, step_reset hpending, rfl, rfl, rfl, rfl, State.hostReset_slot_empty _, rfl, rfl⟩⟩

end Sys2Proof.Machine
end

section
/-! Errors and recovery (spec/60_exceptions.md R230 to R243): an error writes ERR and the response only, and a latched
one is left by a legal START or reset alone. -/

namespace Sys2Proof.Machine

open Sys2Proof.Claims

/-! ### An error is precise (R237) -/

/-- What a command that is not refused can answer: a response without error, or an error that is latched and nothing
else written; FormatError is the host's, never the block's (R232, R237). -/
inductive SucceedsOrRaises (s : State) : State → Prop where
  | success {t : State} {r : Response} (hrsp : t.rsp = some r) (hok : r.err = .noError) : SucceedsOrRaises s t
  | error (code : ErrCode) (info : Byte) (hformat : code ≠ .formatError) : SucceedsOrRaises s (s.raise code info)

theorem State.respondBytes_succeedsOrRaises (s t : State) (bytes : List Byte) (r0 : Word) :
    SucceedsOrRaises s (t.respondBytes bytes r0) :=
  .success (t.respondBytes_rsp bytes r0) (State.err_of_respondBytes (t.respondBytes_rsp bytes r0))

theorem packOrRaise_succeedsOrRaises (op : BitVec 5) (fits : Bool) (c : Chunk) (s : State) :
    SucceedsOrRaises s (packOrRaise op fits c s) := by
  cases fits with
  | true => exact s.respondBytes_succeedsOrRaises s _ _
  | false => exact .error _ _ (by decide)

theorem unpackRule_succeedsOrRaises (s0 s1 s2 s3 : Byte) (avail : BitVec 3) (s : State) :
    SucceedsOrRaises s (unpackRule s0 s1 s2 s3 avail s) := by
  unfold unpackRule
  split
  · exact .error _ _ (by decide)
  · exact .success rfl rfl

theorem decodeDelta_succeedsOrRaises (k : Kind) (dr dg db : Int) (s : State) :
    SucceedsOrRaises s (decodeDelta k dr dg db s) := by
  unfold decodeDelta
  split
  · exact .error _ _ (by decide)
  · exact .success rfl rfl

theorem decodeStep_succeedsOrRaises (c : Chunk) (s : State) : SucceedsOrRaises s (decodeStep c s) := by
  cases c with
  | run n => exact .success rfl rfl
  | index slot =>
    simp only [decodeStep]
    split
    · exact .success rfl rfl
    · exact .error _ _ (by decide)
  | diffSmall dr dg db => exact decodeDelta_succeedsOrRaises _ _ _ _ s
  | diffMed dg u v => exact decodeDelta_succeedsOrRaises _ _ _ _ s
  | rgb p => exact .success rfl rfl

theorem decChunkRule_succeedsOrRaises (s0 s1 s2 s3 : Byte) (avail : BitVec 3) (s : State) :
    SucceedsOrRaises s (decChunkRule s0 s1 s2 s3 avail s) := by
  unfold decChunkRule
  split
  · exact .error _ _ (by decide)
  · exact decodeStep_succeedsOrRaises _ s

theorem encodePixel_succeedsOrRaises (p : Pixel) (s : State) : SucceedsOrRaises s (encodePixel p s) := by
  obtain ⟨t, bytes, r0, h⟩ := encodePixel_responds p s
  rw [h]
  exact s.respondBytes_succeedsOrRaises t bytes r0

/-- The rule of a legal instruction succeeds, or raises its error before every write. -/
theorem ruleOf_succeedsOrRaises {i : Instr} (hlegal : legalOf i = true) (s : State) :
    SucceedsOrRaises s (ruleOf i s) := by
  cases i with
  | start m =>
    obtain ⟨mode, h⟩ := Option.isSome_iff_exists.1 hlegal
    simp only [ruleOf, h]
    exact .success rfl rfl
  | packRun n => exact packOrRaise_succeedsOrRaises ..
  | packIndex slot => exact packOrRaise_succeedsOrRaises ..
  | packDiffSmall dr dg db => exact packOrRaise_succeedsOrRaises ..
  | packDiffMed dg u v => exact packOrRaise_succeedsOrRaises ..
  | packRgb p => exact packOrRaise_succeedsOrRaises ..
  | unpack s0 s1 s2 s3 avail => exact unpackRule_succeedsOrRaises ..
  | encPixel p => exact encodePixel_succeedsOrRaises p s
  | encFlush => exact s.respondBytes_succeedsOrRaises { s with run := 0 } _ _
  | decChunk s0 s1 s2 s3 avail => exact decChunkRule_succeedsOrRaises ..
  | rgb p => exact decodeStep_succeedsOrRaises (.rgb p) s
  | index slot => exact decodeStep_succeedsOrRaises (.index slot) s
  | diffSmall rr gg bb => exact decodeStep_succeedsOrRaises (diffSmallFields rr gg bb) s
  | diffMed gggggg uuuu vvvv => exact decodeStep_succeedsOrRaises (diffMedFields gggggg uuuu vvvv) s
  | run nnnnnn => exact decodeStep_succeedsOrRaises (runFields nnnnnn) s
  | _ => exact .success rfl rfl

/-- So does every instruction in a block that is not faulted, the gate's two errors being raised in the same way. -/
theorem exec_succeedsOrRaises {i : Instr} {s t : State} (hready : Ready s) (hexec : exec i s = .next t) :
    SucceedsOrRaises s t := by
  obtain ⟨hf, -, -⟩ | ⟨hf, -, -⟩ | ⟨-, -, rfl⟩ | ⟨-, -, -, rfl⟩ | ⟨-, hlegal, -, rfl⟩ := exec_cases hexec
  · exact absurd hready hf
  · exact absurd hready hf
  · exact .error _ _ (by decide)
  · exact .error _ _ (by decide)
  · exact ruleOf_succeedsOrRaises hlegal s

/-- Settles O37: by `exec_succeedsOrRaises` an error response is that of an error raised, whose code and info it names. -/
theorem errorsArePrecise : Obligations.ErrorsArePrecise := by
  intro i s t r _ hready hexec hrsp herr
  cases exec_succeedsOrRaises hready hexec with
  | success hrsp' hok =>
    obtain rfl := Option.some.inj (hrsp.symm.trans hrsp')
    exact absurd hok herr
  | error code info hformat =>
    cases hrsp
    exact ⟨rfl, hformat⟩

/-! ### Requests that decode to START, and reset (R210, R260) -/

/-- Only a record with START's op and a mode other than 3 decodes to START. -/
theorem decode_eq_start {request : HostRequest} {m : BitVec 2} (hdecode : decode request = .ok (.start m)) :
    ∃ c, request = .command c ∧ c.op = 0x01 ∧ bitsOf c.a 1 0 ≠ 3 := by
  cases request with
  | reset => cases hdecode
  | command c =>
    obtain ⟨-, hencode⟩ := decodeCommand_canonical hdecode
    have hop : c.op = 0x01 := (congrArg Command.op (HostRequest.command.inj hencode)).symm
    refine ⟨c, rfl, hop, fun hmode => ?_⟩
    cases hdecode.symm.trans (decode_command_error_iff.2 (.inr ⟨⟨hop, hmode⟩, rfl⟩))
  | chunk bytes =>
    cases bytes with
    | nil => cases hdecode
    | cons b0 rest =>
      obtain ⟨-, more, hencode, -⟩ := decodeChunk_canonical hdecode
      cases hencode

/-- What the chunk decoder rejects is cut short, no reset. -/
theorem decodeChunk_ne_hostReset (bytes : List Byte) : decodeChunk bytes ≠ .error .hostReset := by
  intro hdecode
  cases bytes with
  | nil => cases hdecode
  | cons b0 rest =>
    simp only [decodeChunk] at hdecode
    repeat' split at hdecode
    all_goals cases hdecode

/-- Only the host's reset is rejected as one. -/
theorem decode_eq_hostReset {request : HostRequest} (hdecode : decode request = .error .hostReset) :
    request = .reset := by
  cases request with
  | reset => rfl
  | command c => obtain ⟨-, he⟩ | ⟨-, he⟩ := decode_command_error_iff.1 hdecode <;> cases he
  | chunk bytes => exact absurd hdecode (decodeChunk_ne_hostReset bytes)

/-! ### What keeps a latched error (R214, R241) -/

/-- Behind the gate of a faulted block ERR is kept, when a rule that runs there keeps it. -/
theorem gate_err_of_faulted {op : BitVec 5} {legal : Bool} {body : State → State} {s : State} (hfaulted : ¬ Ready s)
    (hbody : runsWhileFaulted op legal = true → (body s).err = s.err) : (gate op legal body s).err = s.err := by
  cases hruns : runsWhileFaulted op legal with
  | false => rw [gate_refused hfaulted hruns, State.refuse_err]
  | true => rw [gate_runs_faulted hfaulted hruns, hbody hruns]

/-- No instruction but a legal START changes a latched error: the others are refused, or only read. -/
theorem exec_err_of_faulted {i : Instr} {s t : State} (hfaulted : ¬ Ready s) (hstart : ¬ LegalStart i)
    (hexec : exec i s = .next t) : t.err = s.err := by
  rw [← exec_next_iff.1 hexec]
  refine gate_err_of_faulted hfaulted fun hruns => ?_
  cases i with
  | start m => exact absurd ⟨m, rfl, fun hm => by subst hm; cases hruns⟩ hstart
  | stateRead => rfl
  | cacheRead slot => rfl
  | _ => cases hruns

/-- No rejected request but the host's reset changes a latched error. -/
theorem State.takeRejected_err_of_faulted {s : State} {e : DecodeReject} (hfaulted : ¬ Ready s)
    (hreset : e ≠ .hostReset) : (s.takeRejected e).err = s.err := by
  cases e with
  | hostReset => exact absurd rfl hreset
  | unassignedOp op => exact gate_err_of_faulted hfaulted fun _ => rfl
  | reservedStartMode => exact gate_err_of_faulted hfaulted fun _ => rfl
  | truncatedChunk n => exact gate_err_of_faulted hfaulted fun hruns => by cases hruns

/-- A step of a faulted block that changes ERR took the host's reset or a legal START. -/
theorem step_err_of_faulted {s t : State} (hfaulted : ¬ Ready s) (hstep : step s = .next t) (hne : t.err ≠ s.err) :
    ∃ request rest, s.pending = request :: rest ∧
      ((request = .reset ∧ t = State.hostReset { s with pending := rest }) ∨
        ∃ m mode, decode request = .ok (.start m) ∧
          t = (State.startImage { s with pending := rest } mode).respondWords 0 0) := by
  cases hpending : s.pending with
  | nil =>
    rw [step_empty hpending] at hstep
    cases hstep
    exact absurd rfl hne
  | cons request rest =>
    have hrest : ¬ Ready { s with pending := rest } := hfaulted
    refine ⟨request, rest, rfl, ?_⟩
    cases hdecode : decode request with
    | ok i =>
      rw [step_decoded hpending hdecode] at hstep
      obtain ⟨m, rfl, hm⟩ : LegalStart i := by
        by_contra hstart
        exact hne (exec_err_of_faulted (s := { s with pending := rest }) hrest hstart hstep)
      obtain ⟨mode, hmode⟩ := modeOf_of_ne_three hm
      rw [exec_start _ hmode] at hstep
      cases hstep
      exact .inr ⟨m, mode, rfl, rfl⟩
    | error e =>
      rw [step_rejected hpending hdecode] at hstep
      cases hstep
      obtain rfl : e = .hostReset := by
        by_contra hreset
        exact hne (State.takeRejected_err_of_faulted (s := { s with pending := rest }) hrest hreset)
      exact .inl ⟨decode_eq_hostReset hdecode, rfl⟩

/-- Settles O38: by `step_err_of_faulted` the request was a reset or a legal START, both of which leave a fresh image
state. -/
theorem onlyStartOrResetClearsError : Obligations.OnlyStartOrResetClearsError := by
  intro s t hfaulted hstep hne
  obtain ⟨request, rest, hpending, ⟨rfl, rfl⟩ | ⟨m, mode, hdecode, rfl⟩⟩ := step_err_of_faulted hfaulted hstep hne
  · exact ⟨⟨rfl, rfl, rfl, State.hostReset_slot_empty _⟩, .inl ⟨rest, hpending⟩⟩
  · obtain ⟨c, rfl, hop, hmode⟩ := decode_eq_start hdecode
    exact ⟨⟨rfl, rfl, rfl, State.startImage_slot_empty _ mode⟩, .inr ⟨c, rest, hpending, hop, hmode⟩⟩

end Sys2Proof.Machine
end
